-- ==== Sys2Proof/Word.lean ====
section
/-! DEFINITION. The two widths of the hardware (00_scope R3): bytes and addresses. -/

namespace Sys2Proof

/-- A register or memory byte: `XLEN` = 8 bits. -/
abbrev Byte := BitVec 8

/-- A program counter value or memory address: `ALEN` = 16 bits. -/
abbrev Addr := BitVec 16

end Sys2Proof
end

