-- ==== Sys2Proof/Machine/Bytes.lean ====
section
/-! DEFINITION. Byte-order and bit-field helpers: how bytes make an address and how an address splits into bytes. -/

namespace Sys2Proof

/-- `{hi, lo}`: the 16-bit value with the given high and low byte (00_scope section 6; 20_memory R33). -/
def ofBytes (hi lo : Byte) : Addr := hi ++ lo

/-- `w[7:0]`. -/
def loByte (w : Addr) : Byte := w.extractLsb' 0 8

/-- `w[15:8]`. -/
def hiByte (w : Addr) : Byte := w.extractLsb' 8 8

/-- `{0x00, d}`: a byte as an address in page 0 (30_encoding R52). -/
def zeroPage (d : Byte) : Addr := ofBytes 0x00#8 d

/-- `{0x01, p}`: the stack slot a stack pointer value designates (10_state R11). -/
def stackAddr (p : Byte) : Addr := ofBytes 0x01#8 p

/-- `zext_16(i)`: an index register zero-extended for a 16-bit addition (40 R84). -/
def zext16 (i : Byte) : Addr := i.setWidth 16

end Sys2Proof
end

