-- ==== Sys2Proof/Config.lean ====
section
/-! DEFINITION. The three parameters the spec leaves open (92_eei_decisions, "Parameters left OPEN"), and this
hardware's values of them. Every operation that depends on one takes the configuration as an argument. -/

namespace Sys2Proof

/-- The open parameters of 00_scope R3. -/
structure Config where
  /-- `RESET_PC`: the program counter after reset (D1). -/
  resetPc : Addr
  /-- `RESET_SP`: the stack pointer after reset (D2). -/
  resetSp : Byte
  /-- `ZP_PTR_WRAP`: the high byte of a zero-page pointer at 0x00FF is read from 0x0000 (true) or 0x0100 (false) (D9). -/
  zpPtrWrap : Bool
  deriving DecidableEq, Repr

/-- This hardware's values: 0xFFFC, 0xFD, true (00_scope R3).
UNVERIFIED, log entries 5, 6, 7: the spec gives the three values as its own decisions, from general knowledge. -/
def Config.hardware : Config :=
  { resetPc := 0xFFFC#16, resetSp := 0xFD#8, zpPtrWrap := true }

end Sys2Proof
end

