-- ==== Sys2Proof/Machine/State.lean ====
section
/-! DEFINITION. The state of the machine (10_state section 1), its reset value, and the reasons a step can stop. -/

namespace Sys2Proof.Machine

/-- The seven status flags, each one bit and each independent; there is no packed status byte (10_state R13, R18).
DESIGN CHOICE, log entry 11: a bit is a `Bool`. -/
structure Flags where
  /-- carry -/
  c : Bool
  /-- zero -/
  z : Bool
  /-- interrupt disable; nothing reads it -/
  i : Bool
  /-- decimal; nothing reads it -/
  d : Bool
  /-- break -/
  b : Bool
  /-- overflow -/
  v : Bool
  /-- negative -/
  n : Bool
  deriving DecidableEq, Repr

/-- The record of one unimplemented-opcode fault (10_state R16): the opcode byte and the address it was fetched from. -/
structure FaultRecord where
  op : Byte
  addr : Addr
  deriving DecidableEq, Repr

/-- The 64 KiB memory as the cells that do not hold `unlistedByte`, in rising order of address (10_state R19). -/
abbrev Memory := List Host.Cell

/-- The number of bytes of memory, `MEM_SIZE` (00_scope R3). -/
def memSize : Nat := 65536

/-- What an unlisted address reads as: "a byte that nothing has written since reset holds 0x00" (10_state R19). -/
def unlistedByte : Byte := 0x00#8

/-- The canonical form: strictly rising addresses below `memSize`, and no cell that holds `unlistedByte`. -/
abbrev Memory.wf (m : Memory) : Prop :=
  m.Pairwise (fun p q => p.1 < q.1) ∧ ∀ cell ∈ m, cell.1 < memSize ∧ cell.2 ≠ unlistedByte

/-- `initialize()`: every byte zero (20_memory R31). -/
def Memory.initialize : Memory := []

/-- The complete state of the machine (10_state section 1). -/
@[ext]
structure State where
  /-- `x[A]`, the accumulator (R10). -/
  a : Byte
  /-- `x[X]`, index register (R10). -/
  x : Byte
  /-- `x[Y]`, index register (R10). -/
  y : Byte
  /-- `x[SP]`, offset of the most recently pushed byte in the stack page (R11). -/
  sp : Byte
  /-- The program counter (R12). -/
  pc : Addr
  /-- The status flags (R13). -/
  flags : Flags
  /-- The remaining-cycle counter, which can be negative and does not wrap (R15). -/
  cyc : Int
  /-- The fault latch: `none`, or the fault that stopped the core (R16). -/
  fault : Option FaultRecord
  /-- `Mem[0x0000..0xFFFF]` (R19). -/
  mem : Memory
  deriving DecidableEq, Repr

/-- The state after reset under a configuration (10_state R20, 70_reset_and_hazards R150). -/
def State.resetWith (cfg : Config) : State :=
  { a := 0x00#8
    x := 0x00#8
    y := 0x00#8
    sp := cfg.resetSp
    pc := cfg.resetPc
    flags := { c := false, z := false, i := false, d := false, b := false, v := false, n := false }
    cyc := 0
    fault := none
    mem := Memory.initialize }

/-- The state of this hardware right after reset: idle, memory all zero, `pc` = 0xFFFC, `sp` = 0xFD (10_state R20). -/
def State.reset : State := State.resetWith Config.hardware

/-- Why a step stops with a fault. -/
inductive Fault where
  /-- Raised by `step` in a state whose fault latch is set: the core is stopped until reset, and the outcome carries the
  latched record (60_exceptions R131, R132). Safe: no instruction runs past it. -/
  | unimplementedOpcode (op : Byte) (addr : Addr)
  deriving DecidableEq, Repr

/-- Why a step is refused. -/
inductive Refusal where
  /-- Raised only by an arm of `exec` whose instruction has no meaning yet; no arm raises it. Safe: nothing runs. -/
  | notModelled (mnemonic : String)
  deriving DecidableEq, Repr

end Sys2Proof.Machine
end

