-- ==== Sys2Proof/Machine/Ops.lean ====
section
/-! DEFINITION. The named operations over memory, the instruction stream, the stack and the fault latch: memory's
contract (20_memory R31) and the primitives of 40_execution_loop_and_primitives R70 to R79, and fault entry
(60_exceptions R131). -/

namespace Sys2Proof.Machine

/-! ### Memory -/

/-- The byte a cell list holds at a key. -/
def Memory.get : Memory → Nat → Byte
  | [], _ => unlistedByte
  | cell :: rest, k => if cell.1 = k then cell.2 else Memory.get rest k

/-- The cells without those at a key. -/
def Memory.remove (m : Memory) (k : Nat) : Memory := m.filter (fun cell => cell.1 != k)

/-- The cells with one put before the first of a higher key. -/
def Memory.put : Memory → Nat → Byte → Memory
  | [], k, v => [(k, v)]
  | cell :: rest, k, v => if k < cell.1 then (k, v) :: cell :: rest else cell :: Memory.put rest k v

/-- `MemRead(a, 1)`: total, changes nothing (R31). -/
def Memory.readByte (m : Memory) (a : Addr) : Byte := m.get a.toNat

/-- `MemWrite(a, 1, v)`: total (R31). It keeps the canonical form: writing what an unlisted address reads as unlists it. -/
def Memory.writeByte (m : Memory) (a : Addr) (v : Byte) : Memory :=
  if v = unlistedByte then m.remove a.toNat else (m.remove a.toNat).put a.toNat v

/-! ### Cycles and the instruction stream -/

/-- Charge `n` cycles: `cyc <- cyc - n`, not clamped (10_state R15). -/
def charge (n : Int) (s : State) : State := { s with cyc := s.cyc - n }

/-- `Internal()`: one cycle with no memory access (R78). -/
def internal (s : State) : State := charge 1 s

/-- What fetching one byte of the instruction stream does to the state: `pc +16 1`, one cycle (R70). -/
def consumeByte (s : State) : State := { s with pc := s.pc + 1#16, cyc := s.cyc - 1 }

/-- `FetchByte()`: the byte at `pc`, which alone advances `pc` (R70). -/
def fetchByte (s : State) : Byte × State := (s.mem.readByte s.pc, consumeByte s)

/-- What fetching two bytes of the instruction stream does to the state (R71). -/
def consumeWord (s : State) : State := consumeByte (consumeByte s)

/-- `FetchWord()`: low byte, then high byte (R71). -/
def fetchWord (s : State) : Addr × State :=
  let lo := fetchByte s
  let hi := fetchByte lo.2
  (ofBytes hi.1 lo.1, hi.2)

/-! ### Reads and writes at computed addresses -/

/-- `ReadByteAt(a)`: one cycle, `pc` not advanced (R72, 90_conflicts C1). -/
def readByteAt (a : Addr) (s : State) : Byte × State := (s.mem.readByte a, charge 1 s)

/-- `ReadWordAt(a)`: the little-endian word at `a` and `a +16 1` (R73). No instruction uses it directly. -/
def readWordAt (a : Addr) (s : State) : Addr × State :=
  let lo := readByteAt a s
  let hi := readByteAt (a + 1#16) lo.2
  (ofBytes hi.1 lo.1, hi.2)

/-- Where the high byte of the zero-page pointer `p` lies (20_memory R35 case (c)). -/
def zpPointerHigh (cfg : Config) (p : Byte) : Addr :=
  if cfg.zpPtrWrap then zeroPage (p + 1#8) else zeroPage p + 1#16

/-- `ReadWordZP(p)`: the 16-bit address stored at the zero-page pointer `p` (R74). -/
def readWordZP (cfg : Config) (p : Byte) (s : State) : Addr × State :=
  let lo := readByteAt (zeroPage p) s
  let hi := readByteAt (zpPointerHigh cfg p) lo.2
  (ofBytes hi.1 lo.1, hi.2)

/-- `WriteWordAt(a, v)`: two bytes, little-endian, two cycles (R75). No instruction uses it directly. -/
def writeWordAt (a : Addr) (v : Addr) (s : State) : State :=
  { s with mem := (s.mem.writeByte a (loByte v)).writeByte (a + 1#16) (hiByte v), cyc := s.cyc - 2 }

/-! ### The stack -/

/-- `PushByte(v)`: decrement, then write at `{0x01, x[SP]}` (R76, 10_state R11). -/
def pushByte (v : Byte) (s : State) : State :=
  { s with sp := s.sp - 1#8, mem := s.mem.writeByte (stackAddr (s.sp - 1#8)) v, cyc := s.cyc - 1 }

/-- `PushWord(w)`: high byte, then low byte (R76).
UNVERIFIED, log entry 10: order and wrap inside the stack page are the spec's decision D11. -/
def pushWord (w : Addr) (s : State) : State := pushByte (loByte w) (pushByte (hiByte w) s)

/-- `PopByte()`: read at `{0x01, x[SP]}`, then increment (R77). No instruction pops. -/
def popByte (s : State) : Byte × State :=
  (s.mem.readByte (stackAddr s.sp), { s with sp := s.sp + 1#8, cyc := s.cyc - 1 })

/-- The return address of a call whose three bytes have been fetched: `pc -16 1` (42_subroutine_call R121). -/
def returnAddress (s : State) : Addr := s.pc - 1#16

/-! ### Page crossing -/

/-- `PageCross(base, ea)`: the high bytes differ (R79). -/
def pageCross (base ea : Addr) : Bool := hiByte ea != hiByte base

/-! ### The fault and the run state -/

/-- Taking the one exception: `raise UnimplementedOpcode(op, at)` sets the latch and does nothing more (60_exceptions R131).
No instruction returns from it; only reset clears the latch (R132). -/
def raiseUnimplemented (op : Byte) (addr : Addr) (s : State) : State := { s with fault := some { op := op, addr := addr } }

/-- The run states of 10_state R17. -/
inductive RunState where
  | idle | running | faulted
  deriving DecidableEq, Repr

/-- The run state at an instruction boundary is a function of `cyc` and `fault` (R17). -/
def runState (s : State) : RunState :=
  match s.fault with
  | some _ => .faulted
  | none => if 0 < s.cyc then .running else .idle

end Sys2Proof.Machine
end

