-- ==== Sys2Proof/Machine/Call.lean ====
section
/-! DEFINITION. The subroutine call, the one control transfer (42_subroutine_call R120, R121). -/

namespace Sys2Proof.Machine

/-- The call after its three bytes have been fetched: an internal cycle, the push of the return address, the jump. -/
def callTo (target : Addr) (fetched : State) : State :=
  { pushWord (returnAddress fetched) (internal fetched) with pc := target }

/-- `JSR $hhll` (R120). -/
def execJsr (a16 : Addr) (s : State) : Host.Outcome State Fault Refusal :=
  .next (callTo a16 (consumeWord (consumeByte s)))

end Sys2Proof.Machine
end

