-- ==== Sys2Proof/Machine/Flags.lean ====
section
/-! DEFINITION. The flag update logic: all of it is `SetZN` (40_execution_loop_and_primitives R87). -/

namespace Sys2Proof.Machine

/-- The zero flag of a loaded byte (R87). -/
def zeroFlag (v : Byte) : Bool := v == 0x00#8

/-- The negative flag of a loaded byte: bit 7 (R87). -/
def negativeFlag (v : Byte) : Bool := v.getLsbD 7

/-- `SetZN(v)`: writes `Z` and `N`, keeps the other five flags (R87, 10_state R14). -/
def setZN (v : Byte) (s : State) : State :=
  { s with flags := { s.flags with z := zeroFlag v, n := negativeFlag v } }

end Sys2Proof.Machine
end

