-- ==== Sys2Proof/Machine/Operands.lean ====
section
/-! DEFINITION. The addressing-mode multiplexer: the eight modes (40_execution_loop_and_primitives R80 to R86).

Each takes the operand field the decoder read from the instruction stream and the state after the opcode fetch, and
answers the operand or its effective address with the state after the mode's cycles.
DESIGN CHOICE, log entry 12: the bytes are read when the instruction is fetched; a mode does what their fetch does to
the state (`consumeByte`, `consumeWord`). -/

namespace Sys2Proof.Machine

/-- `IMM`: the fetched byte itself (R80). -/
def operandImm (d8 : Byte) (s : State) : Byte × State := (d8, consumeByte s)

/-- `ZP`: an address in page 0 (R81). -/
def eaZp (d8 : Byte) (s : State) : Addr × State := (zeroPage d8, consumeByte s)

/-- `ZPX`: zero-page address plus X, wrapping within one byte, one internal cycle (R82). -/
def eaZpx (d8 : Byte) (s : State) : Addr × State := (zeroPage (d8 + s.x), internal (consumeByte s))

/-- `ABS`: the 16-bit address itself (R83). -/
def eaAbs (a16 : Addr) (s : State) : Addr × State := (a16, consumeWord s)

/-- The 16-bit sum of a base and an index, with one internal cycle when it crosses a page (R84, R86, R79). -/
def indexed (base : Addr) (index : Byte) (s : State) : Addr × State :=
  let ea := base + zext16 index
  (ea, if pageCross base ea then internal s else s)

/-- `ABSX`: 16-bit base plus X (R84). -/
def eaAbsx (a16 : Addr) (s : State) : Addr × State := indexed a16 s.x (consumeWord s)

/-- `ABSY`: 16-bit base plus Y (R84). -/
def eaAbsy (a16 : Addr) (s : State) : Addr × State := indexed a16 s.y (consumeWord s)

/-- `INDX`: the address stored at the zero-page pointer `d8 +8 X`, one internal cycle (R85). -/
def eaIndx (cfg : Config) (d8 : Byte) (s : State) : Addr × State :=
  readWordZP cfg (d8 + s.x) (internal (consumeByte s))

/-- `INDY`: the address stored at the zero-page pointer `d8`, plus Y (R86). -/
def eaIndy (cfg : Config) (d8 : Byte) (s : State) : Addr × State :=
  let base := readWordZP cfg d8 (consumeByte s)
  indexed base.1 s.y base.2

end Sys2Proof.Machine
end

