-- ==== Sys2Proof/Machine/Load.lean ====
section
/-! DEFINITION. The load family: `LDA` in its eight addressing modes (41_load R100 to R107).

Each meaning is the whole instruction, from the boundary before its opcode fetch (`consumeByte`) to the boundary after
it. The two indirect modes take the configuration's `ZP_PTR_WRAP`; `exec` runs them with this hardware's. -/

namespace Sys2Proof.Machine

/-- `x[A] <- v`, then `SetZN(v)`: the end of every load. -/
def loadA (v : Byte) (s : State) : State := setZN v { s with a := v }

/-- A load from an effective address: `v <- ReadByteAt(ea)`, then the end of every load. -/
def loadFrom (operand : Addr × State) : State :=
  let r := readByteAt operand.1 operand.2
  loadA r.1 r.2

/-- `LDA #$nn` (R100). -/
def execLdaImm (d8 : Byte) (s : State) : Host.Outcome State Fault Refusal :=
  let v := operandImm d8 (consumeByte s)
  .next (loadA v.1 v.2)

/-- `LDA $nn` (R101). -/
def execLdaZp (d8 : Byte) (s : State) : Host.Outcome State Fault Refusal :=
  .next (loadFrom (eaZp d8 (consumeByte s)))

/-- `LDA $nn,X` (R102). -/
def execLdaZpx (d8 : Byte) (s : State) : Host.Outcome State Fault Refusal :=
  .next (loadFrom (eaZpx d8 (consumeByte s)))

/-- `LDA $hhll` (R103). -/
def execLdaAbs (a16 : Addr) (s : State) : Host.Outcome State Fault Refusal :=
  .next (loadFrom (eaAbs a16 (consumeByte s)))

/-- `LDA $hhll,X` (R104). -/
def execLdaAbsx (a16 : Addr) (s : State) : Host.Outcome State Fault Refusal :=
  .next (loadFrom (eaAbsx a16 (consumeByte s)))

/-- `LDA $hhll,Y` (R105). -/
def execLdaAbsy (a16 : Addr) (s : State) : Host.Outcome State Fault Refusal :=
  .next (loadFrom (eaAbsy a16 (consumeByte s)))

/-- `LDA ($nn,X)` under either value of `ZP_PTR_WRAP` (R106). -/
def ldaIndx (cfg : Config) (d8 : Byte) (s : State) : State :=
  loadFrom (eaIndx cfg d8 (consumeByte s))

/-- `LDA ($nn),Y` under either value of `ZP_PTR_WRAP` (R107). -/
def ldaIndy (cfg : Config) (d8 : Byte) (s : State) : State :=
  loadFrom (eaIndy cfg d8 (consumeByte s))

/-- `LDA ($nn,X)` of this hardware (R106). -/
def execLdaIndx (d8 : Byte) (s : State) : Host.Outcome State Fault Refusal :=
  .next (ldaIndx Config.hardware d8 s)

/-- `LDA ($nn),Y` of this hardware (R107). -/
def execLdaIndy (d8 : Byte) (s : State) : Host.Outcome State Fault Refusal :=
  .next (ldaIndy Config.hardware d8 s)

end Sys2Proof.Machine
end

