-- ==== Sys2Proof/Syntax.lean ====
section
/-! DEFINITION. The nine instructions, one constructor per row of the opcode table (30_encoding R53). -/

namespace Sys2Proof

/-- An instruction with its operand field: `d8` or `a16` of 30_encoding R51.
The registers an instruction uses are implied by its opcode (R52), so no register field exists. -/
inductive Instr where
  /-- `LDA #$nn`, format `IMM` (41_load R100). -/
  | ldaImm (d8 : Byte)
  /-- `LDA $nn`, format `ZP` (R101). -/
  | ldaZp (d8 : Byte)
  /-- `LDA $nn,X`, format `ZPX` (R102). -/
  | ldaZpx (d8 : Byte)
  /-- `LDA $hhll`, format `ABS` (R103). -/
  | ldaAbs (a16 : Addr)
  /-- `LDA $hhll,X`, format `ABSX` (R104). -/
  | ldaAbsx (a16 : Addr)
  /-- `LDA $hhll,Y`, format `ABSY` (R105). -/
  | ldaAbsy (a16 : Addr)
  /-- `LDA ($nn,X)`, format `INDX` (R106). -/
  | ldaIndx (d8 : Byte)
  /-- `LDA ($nn),Y`, format `INDY` (R107). -/
  | ldaIndy (d8 : Byte)
  /-- `JSR $hhll`, format `ABS` (42_subroutine_call R120). -/
  | jsr (a16 : Addr)
  deriving DecidableEq, Repr

end Sys2Proof
end

