-- ==== Sys2Proof/Machine/Dispatch.lean ====
section
/-! DEFINITION. One arm per instruction, each one call of its meaning (40_execution_loop_and_primitives R88). -/

namespace Sys2Proof.Machine

/-- The effect of an instruction, from the boundary before its opcode fetch to the boundary after it. -/
def exec (i : Instr) (s : State) : Host.Outcome State Fault Refusal :=
  match i with
  | .ldaImm d8 => Sys2Proof.Machine.execLdaImm d8 s
  | .ldaZp d8 => Sys2Proof.Machine.execLdaZp d8 s
  | .ldaZpx d8 => Sys2Proof.Machine.execLdaZpx d8 s
  | .ldaAbs a16 => Sys2Proof.Machine.execLdaAbs a16 s
  | .ldaAbsx a16 => Sys2Proof.Machine.execLdaAbsx a16 s
  | .ldaAbsy a16 => Sys2Proof.Machine.execLdaAbsy a16 s
  | .ldaIndx d8 => Sys2Proof.Machine.execLdaIndx d8 s
  | .ldaIndy d8 => Sys2Proof.Machine.execLdaIndy d8 s
  | .jsr a16 => Sys2Proof.Machine.execJsr a16 s

end Sys2Proof.Machine
end

