-- ==== Sys2Proof/WellFormed.lean ====
section
/-! DEFINITION. Which instructions are well formed. -/

namespace Sys2Proof

/-- Every term of `Instr` is well formed: "every value of every operand byte is legal: all 256 values of `d8` and all
65536 values of `a16` are accepted and none is reserved" (30_encoding R55), and the field types hold exactly those
values. The checks there are to make are on byte strings, and `wellFormedBytes` of Decode.lean makes them. -/
def Instr.wellFormed : Instr → Bool
  | .ldaImm _ => true
  | .ldaZp _ => true
  | .ldaZpx _ => true
  | .ldaAbs _ => true
  | .ldaAbsx _ => true
  | .ldaAbsy _ => true
  | .ldaIndx _ => true
  | .ldaIndy _ => true
  | .jsr _ => true

end Sys2Proof
end

