-- ==== Sys2Proof/Decode.lean ====
section
/-! DEFINITION. The opcode map, instruction lengths, operand assembly, the decoder, and after it the encoder
(30_encoding R50 to R58). -/

namespace Sys2Proof

/-- The eight formats of 30_encoding R51. -/
inductive Format where
  | imm | zp | zpx | abs | absx | absy | indx | indy
  deriving DecidableEq, Repr

/-- The nine handlers the opcode table maps bytes to (40 R88). -/
inductive Handler where
  | ldaImm | ldaZp | ldaZpx | ldaAbs | ldaAbsx | ldaAbsy | ldaIndx | ldaIndy | jsr
  deriving DecidableEq, Repr

/-- What the decoder answers: an instruction, or the table's explicit unimplemented entry with the byte (R54). -/
inductive Decoded where
  | instr (i : Instr)
  | unimplemented (op : Byte)
  deriving DecidableEq, Repr

/-- Why a byte string is no encoding of an instruction. -/
inductive DecodeError where
  /-- There is no opcode byte. -/
  | noByte
  /-- The first byte is one of the 247 unimplemented opcodes (R54). -/
  | unimplemented (op : Byte)
  /-- The string ends before the operand bytes the format asks for (R50). -/
  | truncated (op : Byte)
  deriving DecidableEq, Repr

/-- The opcode map, on all eight bits of the opcode byte: a lookup table from byte to handler (R53, R58).
UNVERIFIED, log entry 8: seven of the nine byte values are the spec's decision D3. -/
def decodeOpcode (op : Byte) : Option Handler :=
  match op with
  | 0xA9#8 => some .ldaImm
  | 0xA5#8 => some .ldaZp
  | 0xB5#8 => some .ldaZpx
  | 0xAD#8 => some .ldaAbs
  | 0xBD#8 => some .ldaAbsx
  | 0xB9#8 => some .ldaAbsy
  | 0xA1#8 => some .ldaIndx
  | 0xB1#8 => some .ldaIndy
  | 0x20#8 => some .jsr
  | _ => none

/-- The format each handler's row of the table gives (R53). -/
def Handler.format : Handler → Format
  | .ldaImm => .imm
  | .ldaZp => .zp
  | .ldaZpx => .zpx
  | .ldaAbs => .abs
  | .ldaAbsx => .absx
  | .ldaAbsy => .absy
  | .ldaIndx => .indx
  | .ldaIndy => .indy
  | .jsr => .abs

/-- The number of operand bytes: one in layout L2, two in layout L3 (R51). -/
def Format.operandBytes : Format → Nat
  | .imm => 1
  | .zp => 1
  | .zpx => 1
  | .indx => 1
  | .indy => 1
  | .abs => 2
  | .absx => 2
  | .absy => 2

/-- Operand assembly: `d8` is byte 1, `a16` is `{byte 2, byte 1}` (R52). -/
def Handler.assemble (h : Handler) (b1 b2 : Byte) : Instr :=
  match h with
  | .ldaImm => .ldaImm b1
  | .ldaZp => .ldaZp b1
  | .ldaZpx => .ldaZpx b1
  | .ldaAbs => .ldaAbs (ofBytes b2 b1)
  | .ldaAbsx => .ldaAbsx (ofBytes b2 b1)
  | .ldaAbsy => .ldaAbsy (ofBytes b2 b1)
  | .ldaIndx => .ldaIndx b1
  | .ldaIndy => .ldaIndy b1
  | .jsr => .jsr (ofBytes b2 b1)

/-- The decoder of the machine: the opcode byte and the two bytes after it in the instruction stream.
Total; the bytes past the instruction's own length do not matter. -/
def decode (op b1 b2 : Byte) : Decoded :=
  match decodeOpcode op with
  | some h => .instr (h.assemble b1 b2)
  | none => .unimplemented op

/-- The decoder on a byte string: the instruction at its front and the bytes after it. Total, rejecting by name. -/
def decodeBytes : List Byte → Except DecodeError (Instr × List Byte)
  | [] => .error .noByte
  | op :: rest =>
    match decodeOpcode op with
    | none => .error (.unimplemented op)
    | some h =>
      if rest.length < h.format.operandBytes then .error (.truncated op)
      else .ok (h.assemble (rest.getD 0 0#8) (rest.getD 1 0#8), rest.drop h.format.operandBytes)

/-- A byte string is the encoding of one instruction: its first byte is implemented (R53) and it has exactly the length
the format gives (R50). -/
def wellFormedBytes : List Byte → Bool
  | [] => false
  | op :: rest =>
    match decodeOpcode op with
    | none => false
    | some h => rest.length == h.format.operandBytes

/-- Byte `k` of an instruction whose bits are `w`, of which only the low `nbits` are given and the rest are zero. -/
def tableByte (nbits w k : Nat) : Byte := BitVec.ofNat 8 ((w % 2 ^ nbits) >>> (8 * k))

/-- The instruction the decoder reads from the bits `w`, byte 0 in bits 7 to 0 and each later byte above it. -/
def decodeTableWord (nbits w : Nat) : Option Instr :=
  match decode (tableByte nbits w 0) (tableByte nbits w 1) (tableByte nbits w 2) with
  | .instr i => some i
  | .unimplemented _ => none

/-- The handler of an instruction. -/
def Instr.handler : Instr → Handler
  | .ldaImm _ => .ldaImm
  | .ldaZp _ => .ldaZp
  | .ldaZpx _ => .ldaZpx
  | .ldaAbs _ => .ldaAbs
  | .ldaAbsx _ => .ldaAbsx
  | .ldaAbsy _ => .ldaAbsy
  | .ldaIndx _ => .ldaIndx
  | .ldaIndy _ => .ldaIndy
  | .jsr _ => .jsr

/-- The length in bytes, opcode byte included: 2 or 3 (R50, R51). -/
def Instr.length (i : Instr) : Nat := 1 + i.handler.format.operandBytes

/-- The encoder: the bytes of an instruction in memory order, from the column "bytes" of R57. -/
def encode : Instr → List Byte
  | .ldaImm d8 => [0xA9#8, d8]
  | .ldaZp d8 => [0xA5#8, d8]
  | .ldaZpx d8 => [0xB5#8, d8]
  | .ldaAbs a16 => [0xAD#8, loByte a16, hiByte a16]
  | .ldaAbsx a16 => [0xBD#8, loByte a16, hiByte a16]
  | .ldaAbsy a16 => [0xB9#8, loByte a16, hiByte a16]
  | .ldaIndx d8 => [0xA1#8, d8]
  | .ldaIndy d8 => [0xB1#8, d8]
  | .jsr a16 => [0x20#8, loByte a16, hiByte a16]

/-- One hexadecimal digit. -/
def hexDigit (n : Nat) : Char := ['0', '1', '2', '3', '4', '5', '6', '7', '8', '9', 'A', 'B', 'C', 'D', 'E', 'F'].getD n '?'

/-- A byte as two hexadecimal digits. -/
def hexByte (b : Byte) : String := String.ofList [hexDigit (b.toNat / 16), hexDigit (b.toNat % 16)]

/-- An address as four hexadecimal digits. -/
def hexAddr (a : Addr) : String := hexByte (hiByte a) ++ hexByte (loByte a)

/-- The assembler form of an instruction (R57). Names only: no rule depends on it (D5). -/
def asmText : Instr → String
  | .ldaImm d8 => "LDA #$" ++ hexByte d8
  | .ldaZp d8 => "LDA $" ++ hexByte d8
  | .ldaZpx d8 => "LDA $" ++ hexByte d8 ++ ",X"
  | .ldaAbs a16 => "LDA $" ++ hexAddr a16
  | .ldaAbsx a16 => "LDA $" ++ hexAddr a16 ++ ",X"
  | .ldaAbsy a16 => "LDA $" ++ hexAddr a16 ++ ",Y"
  | .ldaIndx d8 => "LDA ($" ++ hexByte d8 ++ ",X)"
  | .ldaIndy d8 => "LDA ($" ++ hexByte d8 ++ "),Y"
  | .jsr a16 => "JSR $" ++ hexAddr a16

end Sys2Proof
end

