-- ==== Sys2Proof/Machine/Fetch.lean ====
section
/-! DEFINITION. Fetching and decoding the instruction at `pc`, and placing one there (30_encoding R50, R56). -/

namespace Sys2Proof.Machine

/-- The instruction whose bytes lie at `pc`, `pc +16 1`, `pc +16 2` (R50, R51).
DESIGN CHOICE, log entry 12: the three bytes are looked at in one go; reads have no side effect (20_memory R37), and the
decoder does not use the bytes past the instruction's length. -/
def fetchInstr (s : State) : Decoded :=
  decode (s.mem.readByte s.pc) (s.mem.readByte (s.pc + 1#16)) (s.mem.readByte (s.pc + 2#16))

/-- The state with the bytes of an instruction given as bits `w` at `pc`, zero above `nbits`, three bytes in all. -/
def placeInstr (s : State) (nbits w : Nat) : State :=
  { s with
    mem := ((s.mem.writeByte s.pc (tableByte nbits w 0)).writeByte (s.pc + 1#16) (tableByte nbits w 1)).writeByte
      (s.pc + 2#16) (tableByte nbits w 2) }

/-- The state made ready to run one instruction: the fault latch clear and a budget above zero, as after `Reset()` and the
start of `Execute(1)`; a budget that is already above zero stays. -/
def makeRunning (s : State) : State := { s with fault := none, cyc := if 0 < s.cyc then s.cyc else 1 }

end Sys2Proof.Machine
end

