-- ==== Sys2Proof/Machine/Execute.lean ====
section
/-! DEFINITION. `Step()`, one turn of the execution loop, and `Execute(b)` (40_execution_loop_and_primitives R88, R89). -/

namespace Sys2Proof.Machine

/-- `Step()`: the instruction at `pc` runs, or its opcode byte is fetched and the fault is raised (R88).
DEDUCED, log entry 2: the raise is a next state with the latch set. -/
def stepInstr (s : State) : Host.Outcome State Fault Refusal :=
  match fetchInstr s with
  | .instr i => exec i s
  | .unimplemented op => .next (raiseUnimplemented op s.pc (consumeByte s))

/-- One turn of the loop `while cyc > 0 and fault = none: Step()` (R89): a running core runs one instruction, an idle core
holds its state (60_exceptions R142), and a faulted core answers the fault it stopped with (R132).
DEDUCED, log entries 1 and 2. -/
def turn (s : State) : Host.Outcome State Fault Refusal :=
  match s.fault with
  | some r => .fault (.unimplementedOpcode r.op r.addr)
  | none => if 0 < s.cyc then stepInstr s else .next s

/-- The loop of R89 for at most `fuel` instructions: it goes on while the core is running. -/
def loop : Nat → State → Host.Outcome State Fault Refusal
  | 0, s => .next s
  | fuel + 1, s =>
    match runState s with
    | .running =>
      match stepInstr s with
      | .next t => loop fuel t
      | .fault r => .fault r
      | .refused r => .refused r
    | .idle => .next s
    | .faulted => .next s

/-- `Execute(b)`: nothing changes while a fault is latched; else `cyc` is loaded with the budget and the loop runs (R89).
Every step lowers `cyc` by at least 1, so at most `b` steps run (R90), and `b` is fuel enough. -/
def execute (b : Int) (s : State) : Host.Outcome State Fault Refusal :=
  match s.fault with
  | some _ => .next s
  | none => loop b.toNat { s with cyc := b }

end Sys2Proof.Machine
end

