-- ==== Sys2Proof/Machine/Step.lean ====
section
/-! DEFINITION. The step of the machine, and where it fetches. -/

namespace Sys2Proof.Machine

/-- One step: one turn of the execution loop, that is one whole instruction of a running core (00_scope R4). -/
def step (s : State) : Host.Outcome State Fault Refusal := turn s

/-- The state with an instruction at `pc` and the core running, so that the next step fetches and runs it.
DESIGN CHOICE, log entry 4: it stands for the host's load of the program and its start of `Execute(1)`. -/
def State.withFetchWord (s : State) (nbits w : Nat) : State := makeRunning (placeInstr s nbits w)

end Sys2Proof.Machine
end

