-- ==== Sys2Proof/Machine/HostInterface.lean ====
section
/-! DEFINITION. What the host may do to the core while no execute call is in progress (10_state R23). Reading state needs
no action: every field of `State` can be read. -/

namespace Sys2Proof.Machine

/-- The name of one flag (10_state R13). -/
inductive FlagName where
  | c | z | i | d | b | v | n
  deriving DecidableEq, Repr

/-- The value of one flag. -/
def Flags.get (f : Flags) (k : FlagName) : Bool :=
  match k with
  | .c => f.c
  | .z => f.z
  | .i => f.i
  | .d => f.d
  | .b => f.b
  | .v => f.v
  | .n => f.n

/-- The flags with one of them set to a value. -/
def Flags.set (f : Flags) (k : FlagName) (bit : Bool) : Flags :=
  match k with
  | .c => { f with c := bit }
  | .z => { f with z := bit }
  | .i => { f with i := bit }
  | .d => { f with d := bit }
  | .b => { f with b := bit }
  | .v => { f with v := bit }
  | .n => { f with n := bit }

/-- The actions (a), (b), (c) and (e) of R23. -/
inductive HostAction where
  /-- (a) Request reset. -/
  | reset
  /-- (b) Write one byte of memory. -/
  | writeMem (addr : Addr) (v : Byte)
  /-- (c) Write a register. -/
  | writeA (v : Byte)
  | writeX (v : Byte)
  | writeY (v : Byte)
  | writeSp (v : Byte)
  | writePc (v : Addr)
  /-- (c) Write a flag. -/
  | writeFlag (k : FlagName) (bit : Bool)
  /-- (e) Start an execute call with a budget. -/
  | execute (b : Int)
  deriving DecidableEq, Repr

/-- What an action does to a core that is not running. -/
def hostEffect (act : HostAction) (s : State) : Host.Outcome State Fault Refusal :=
  match act with
  | .reset => .next State.reset
  | .writeMem addr v => .next { s with mem := s.mem.writeByte addr v }
  | .writeA v => .next { s with a := v }
  | .writeX v => .next { s with x := v }
  | .writeY v => .next { s with y := v }
  | .writeSp v => .next { s with sp := v }
  | .writePc v => .next { s with pc := v }
  | .writeFlag k bit => .next { s with flags := s.flags.set k bit }
  | .execute b => Sys2Proof.Machine.execute b s

/-- The host's move: none while an execute call is in progress (R23, 70_reset_and_hazards R159).
DESIGN CHOICE, log entry 14. -/
def hostAct (act : HostAction) (s : State) : Option (Host.Outcome State Fault Refusal) :=
  match runState s with
  | .running => none
  | .idle => some (hostEffect act s)
  | .faulted => some (hostEffect act s)

/-- The status outputs of the block (R24): `idle`, `cyc_out`, and the three `fault_` ports as one optional record. -/
structure StatusPorts where
  idle : Bool
  cycOut : Int
  fault : Option FaultRecord
  deriving DecidableEq, Repr

/-- What the status ports show: `idle` says that no execute call is in progress, and a raised fault has ended its call
(R17, R24). -/
def statusPorts (s : State) : StatusPorts :=
  { idle := decide (runState s ≠ .running), cycOut := s.cyc, fault := s.fault }

end Sys2Proof.Machine
end

