-- ==== Sys2Proof/Machine/Bus.lean ====
section
/-! DEFINITION. The cycles of each instruction in order, each with its memory access (40_execution_loop_and_primitives R93,
10_state R24). A view of an instruction beside its meaning: it is no sequence of steps (00_scope R4), and the statements
about it say that it accounts for the cycles charged and the bytes stored.
UNVERIFIED, log entry 17: the place of the internal cycles of `ZPX`, `INDX` and `JSR` is the spec's decision D8. -/

namespace Sys2Proof.Machine

/-- One cycle at the memory port. -/
inductive BusCycle where
  | read (addr : Addr)
  | write (addr : Addr) (v : Byte)
  /-- A cycle with no access (R78). -/
  | internal
  deriving DecidableEq, Repr

/-- The opcode fetch and the fetch of one operand byte. -/
def busFetch2 (p0 : Addr) : List BusCycle := [.read p0, .read (p0 + 1#16)]

/-- The opcode fetch and the fetch of two operand bytes. -/
def busFetch3 (p0 : Addr) : List BusCycle := [.read p0, .read (p0 + 1#16), .read (p0 + 2#16)]

/-- The bracketed cycle, which occurs only on a page crossing, and the read of the datum. -/
def busIndexed (base : Addr) (index : Byte) : List BusCycle :=
  let ea := base + zext16 index
  (if pageCross base ea then [.internal] else []) ++ [.read ea]

/-- The two reads of a zero-page pointer. -/
def busPointer (cfg : Config) (p : Byte) : List BusCycle := [.read (zeroPage p), .read (zpPointerHigh cfg p)]

/-- The cycles of one instruction started in a state (R93). -/
def busCycles (i : Instr) (s : State) : List BusCycle :=
  match i with
  | .ldaImm _ => busFetch2 s.pc
  | .ldaZp d8 => busFetch2 s.pc ++ [.read (zeroPage d8)]
  | .ldaZpx d8 => busFetch2 s.pc ++ [.internal, .read (zeroPage (d8 + s.x))]
  | .ldaAbs a16 => busFetch3 s.pc ++ [.read a16]
  | .ldaAbsx a16 => busFetch3 s.pc ++ busIndexed a16 s.x
  | .ldaAbsy a16 => busFetch3 s.pc ++ busIndexed a16 s.y
  | .ldaIndx d8 =>
    busFetch2 s.pc ++ [.internal] ++ busPointer Config.hardware (d8 + s.x) ++
      [.read (readWordZP Config.hardware (d8 + s.x) s).1]
  | .ldaIndy d8 =>
    busFetch2 s.pc ++ busPointer Config.hardware d8 ++ busIndexed (readWordZP Config.hardware d8 s).1 s.y
  | .jsr _ =>
    busFetch3 s.pc ++
      [.internal, .write (stackAddr (s.sp - 1#8)) (hiByte (s.pc + 2#16)),
        .write (stackAddr (s.sp - 2#8)) (loByte (s.pc + 2#16))]

/-- The cycles of one `Step()`: an unimplemented opcode is read and nothing else is accessed (R93). -/
def stepBusCycles (s : State) : List BusCycle :=
  match fetchInstr s with
  | .instr i => busCycles i s
  | .unimplemented _ => [.read s.pc]

/-- The memory after the writes of a list of cycles, in order. -/
def replayWrites (cycles : List BusCycle) (m : Memory) : Memory :=
  match cycles with
  | [] => m
  | .read _ :: rest => replayWrites rest m
  | .internal :: rest => replayWrites rest m
  | .write addr v :: rest => replayWrites rest (m.writeByte addr v)

end Sys2Proof.Machine
end

