-- ==== Sys2Proof/Machine/Ports.lean ====
section
/-! DEFINITION. The memory port at transaction level (10_state R24): `mem_addr`, `mem_rd`, `mem_rdata`, `mem_wr`, `mem_wdata`
and `mem_init`, what the memory does with each transaction (20_memory R31), and which transactions a step and a host action
raise. The requests `reset_req` and `exec_req` with `budget` and the accesses `state_wr` are the actions of
HostInterface.lean, `state_rd` is the fields of `State`, and the status outputs are `statusPorts`. -/

namespace Sys2Proof.Machine

/-- One transaction at the memory port (R24). -/
inductive MemTransaction where
  /-- `mem_rd` at `mem_addr`; the memory answers `mem_rdata`. -/
  | read (addr : Addr) (rdata : Byte)
  /-- `mem_wr` at `mem_addr` with `mem_wdata`. -/
  | write (addr : Addr) (wdata : Byte)
  /-- `mem_init`: the memory is asked to set every byte to 0x00. -/
  | init
  deriving DecidableEq, Repr

/-- The signals of the memory port; a value is there only while the signal that qualifies it is raised. -/
structure MemSignals where
  memAddr : Option Addr
  memRd : Bool
  memRdata : Option Byte
  memWr : Bool
  memWdata : Option Byte
  memInit : Bool
  deriving DecidableEq, Repr

/-- The signals during a transaction (R24). -/
def MemTransaction.signals : MemTransaction → MemSignals
  | .read addr rdata =>
    { memAddr := some addr, memRd := true, memRdata := some rdata, memWr := false, memWdata := none, memInit := false }
  | .write addr wdata =>
    { memAddr := some addr, memRd := false, memRdata := none, memWr := true, memWdata := some wdata, memInit := false }
  | .init =>
    { memAddr := none, memRd := false, memRdata := none, memWr := false, memWdata := none, memInit := true }

/-- What the memory does with one transaction (20_memory R31). -/
def Memory.serve (m : Memory) (tr : MemTransaction) : Memory :=
  match tr with
  | .read _ _ => m
  | .write addr wdata => m.writeByte addr wdata
  | .init => Memory.initialize

/-- The memory after a sequence of transactions, one at a time and in order (20_memory R40). -/
def Memory.serveAll (m : Memory) (trs : List MemTransaction) : Memory := trs.foldl Memory.serve m

/-- The transactions of a list of cycles on a memory: each read carries the byte the memory holds at that moment
(`mem_rdata = MemRead(mem_addr, 1)`), and an internal cycle has none. -/
def portTransactions : List BusCycle → Memory → List MemTransaction
  | [], _ => []
  | .read addr :: rest, m => .read addr (m.readByte addr) :: portTransactions rest m
  | .internal :: rest, m => portTransactions rest m
  | .write addr v :: rest, m => .write addr v :: portTransactions rest (m.writeByte addr v)

/-- The transactions of one step: those of `Step()` while the core is running, else none. -/
def stepTransactions (s : State) : List MemTransaction :=
  match runState s with
  | .running => portTransactions (stepBusCycles s) s.mem
  | .idle => []
  | .faulted => []

/-- The transactions of the loop of R89. -/
def loopTransactions : Nat → State → List MemTransaction
  | 0, _ => []
  | fuel + 1, s =>
    match runState s with
    | .running =>
      match stepInstr s with
      | .next t => stepTransactions s ++ loopTransactions fuel t
      | .fault _ => stepTransactions s
      | .refused _ => stepTransactions s
    | .idle => []
    | .faulted => []

/-- The transactions of `Execute(b)`. -/
def executeTransactions (b : Int) (s : State) : List MemTransaction :=
  match s.fault with
  | some _ => []
  | none => loopTransactions b.toNat { s with cyc := b }

/-- The transactions the core raises for a host action: `mem_init` for reset (70_reset_and_hazards R150), those of the loop
for an execute call, and none for the others. The host's own write of a byte (R23 (b)) is no transaction of the core. -/
def hostTransactions (act : HostAction) (s : State) : List MemTransaction :=
  match act with
  | .reset => [.init]
  | .writeMem _ _ => []
  | .writeA _ => []
  | .writeX _ => []
  | .writeY _ => []
  | .writeSp _ => []
  | .writePc _ => []
  | .writeFlag _ _ => []
  | .execute b => executeTransactions b s

end Sys2Proof.Machine
end

