-- ==== Sys2Proof/Safety.lean ====
section
/-! DEFINITION. The words the statements use: the invariant of the machine, how a run ends, and the state a load leaves. -/

namespace Sys2Proof.Machine

/-- The implemented opcode bytes, as a list (30_encoding R53). -/
def implementedOpcodes : List Byte := [0xA9#8, 0xA5#8, 0xB5#8, 0xAD#8, 0xBD#8, 0xB9#8, 0xA1#8, 0xB1#8, 0x20#8]

/-- What every step of this machine keeps:
memory has its canonical form (20_memory R30);
the counter is not below -5 (40 R90);
`Z` and `N` are not both set (40 R87);
a latched fault names an unimplemented opcode (60 R130). -/
structure State.Inv (s : State) : Prop where
  memCanonical : s.mem.wf
  cycBound : -5 ≤ s.cyc
  zeroNotNegative : ¬ (s.flags.z = true ∧ s.flags.n = true)
  faultGenuine : ∀ r, s.fault = some r → r.op ∉ implementedOpcodes

/-- A run ended normally: at an instruction boundary the counter is not above zero and no fault is latched (60 R143). -/
def NormalEnd (s : State) : Prop := s.fault = none ∧ s.cyc ≤ 0

/-- A run ended by a fault (60 R143). -/
def FaultEnd (s : State) : Prop := s.fault ≠ none

/-- The load-class instructions: `LDA` in its eight modes (41_load). -/
def isLoad : Instr → Bool
  | .ldaImm _ => true
  | .ldaZp _ => true
  | .ldaZpx _ => true
  | .ldaAbs _ => true
  | .ldaAbsx _ => true
  | .ldaAbsy _ => true
  | .ldaIndx _ => true
  | .ldaIndy _ => true
  | .jsr _ => false

/-- The state a load of `v` leaves, as the "Writes" lines of 41_load give it: `A`, `Z`, `N`, `pc` past the instruction's
`len` bytes, `cyc` lowered by `cost`, and nothing else. -/
def afterLoad (s : State) (v : Byte) (len : Addr) (cost : Int) : State :=
  { s with
    a := v
    flags := { s.flags with z := decide (v = 0x00#8), n := v.getLsbD 7 }
    pc := s.pc + len
    cyc := s.cyc - cost }

/-- The cycles of each instruction (the table of 40 R92). -/
def cycleCost (i : Instr) (s : State) : Int :=
  match i with
  | .ldaImm _ => 2
  | .ldaZp _ => 3
  | .ldaZpx _ => 4
  | .ldaAbs _ => 4
  | .ldaAbsx a16 => if pageCross a16 (a16 + zext16 s.x) then 5 else 4
  | .ldaAbsy a16 => if pageCross a16 (a16 + zext16 s.y) then 5 else 4
  | .ldaIndx _ => 6
  | .ldaIndy d8 =>
    let base := (readWordZP Config.hardware d8 s).1
    if pageCross base (base + zext16 s.y) then 6 else 5
  | .jsr _ => 6

/-- Calls made one after another, each from the state the one before left. -/
def runCalls : List Addr → State → Host.Outcome State Fault Refusal
  | [], s => .next s
  | target :: rest, s =>
    match exec (.jsr target) s with
    | .next t => runCalls rest t
    | .fault r => .fault r
    | .refused r => .refused r

end Sys2Proof.Machine
end

