-- ==== Sys2Proof/Certificates/Slice0/Obligations.lean ====
section
/-! DEFINITION. The statements for the provers. Each docstring names the rule or section of spec/ it formalises; where a
statement rests on a decision of the spec or a choice of the model it names the decision or the log entry. -/

open Sys2Proof Sys2Proof.Machine

/-! ### Encoding -/

/-- Decode and encode agree: whatever follows it in the byte string, the encoding of any instruction, with any operand,
decodes to that instruction and leaves what follows (30_encoding sections 1 to 3, 5; opcode bytes: decisions D3, D4). -/
def Obligations.DecodeOfEncodeIsIdentity : Prop :=
  ∀ (i : Instr) (rest : List Byte), i.wellFormed = true → decodeBytes (encode i ++ rest) = .ok (i, rest)

/-- The other direction: every byte string the decoder accepts is the encoding of the instruction it answers, then the
rest, so each encoding has one meaning and each instruction one encoding (30_encoding sections 1 to 5). -/
def Obligations.AcceptedBytesAreTheEncoding : Prop :=
  ∀ (bytes : List Byte) (i : Instr) (rest : List Byte), decodeBytes bytes = .ok (i, rest) → bytes = encode i ++ rest

/-- A byte string is well formed exactly when it is the encoding of some instruction (30_encoding sections 1, 3, 4). -/
def Obligations.WellFormedBytesAreEncodings : Prop :=
  ∀ bytes : List Byte, wellFormedBytes bytes = true ↔ ∃ i : Instr, bytes = encode i

/-- The opcode map of all 256 byte values: nine are implemented, every other one is unimplemented by name
(30_encoding section 3 and 4; decisions D3, D4). -/
def Obligations.OpcodeMapIsExact : Prop :=
  ∀ op b1 b2 : Byte,
    decode op b1 b2 =
      if op = 0xA9#8 then .instr (.ldaImm b1)
      else if op = 0xA5#8 then .instr (.ldaZp b1)
      else if op = 0xB5#8 then .instr (.ldaZpx b1)
      else if op = 0xAD#8 then .instr (.ldaAbs (ofBytes b2 b1))
      else if op = 0xBD#8 then .instr (.ldaAbsx (ofBytes b2 b1))
      else if op = 0xB9#8 then .instr (.ldaAbsy (ofBytes b2 b1))
      else if op = 0xA1#8 then .instr (.ldaIndx b1)
      else if op = 0xB1#8 then .instr (.ldaIndy b1)
      else if op = 0x20#8 then .instr (.jsr (ofBytes b2 b1))
      else .unimplemented op

/-- Words written out from the encodings of 30_encoding section 5, byte 0 lowest (sanity). -/
def Obligations.WrittenOutWordsDecode : Prop :=
  decodeTableWord 16 0x42A9 = some (.ldaImm 0x42#8) ∧
  decodeTableWord 16 0x42A5 = some (.ldaZp 0x42#8) ∧
  decodeTableWord 24 0x1234AD = some (.ldaAbs 0x1234#16) ∧
  decodeTableWord 24 0x123420 = some (.jsr 0x1234#16) ∧
  decodeTableWord 8 0x00 = none

/-- R52: an operand byte is unsigned, an address operand is byte 2 times 256 plus byte 1 (a shift by 8 bits), a
zero-page operand is zero-extended, and an immediate is the byte itself. -/
def Obligations.OperandAssembly : Prop :=
  (∀ hi lo : Byte, (ofBytes hi lo).toNat = 256 * hi.toNat + lo.toNat) ∧
  (∀ d8 : Byte, (zeroPage d8).toNat = d8.toNat) ∧
  (∀ b1 b2 : Byte,
    Handler.assemble .ldaAbs b1 b2 = .ldaAbs (ofBytes b2 b1) ∧ Handler.assemble .ldaAbsx b1 b2 = .ldaAbsx (ofBytes b2 b1) ∧
    Handler.assemble .ldaAbsy b1 b2 = .ldaAbsy (ofBytes b2 b1) ∧ Handler.assemble .jsr b1 b2 = .jsr (ofBytes b2 b1) ∧
    Handler.assemble .ldaImm b1 b2 = .ldaImm b1 ∧ Handler.assemble .ldaZp b1 b2 = .ldaZp b1 ∧
    Handler.assemble .ldaZpx b1 b2 = .ldaZpx b1 ∧ Handler.assemble .ldaIndx b1 b2 = .ldaIndx b1 ∧
    Handler.assemble .ldaIndy b1 b2 = .ldaIndy b1) ∧
  (∀ (d8 : Byte) (s : State), ∃ t : State, exec (.ldaImm d8) s = .next t ∧ t.a = d8)

/-! ### Fetching and stepping -/

/-- If the bytes of an instruction's encoding lie at `pc` and the addresses after it, modulo 65536, then that instruction
is fetched (30_encoding section 1; 10_state section 3 for the wrap). -/
def Obligations.FetchReadsEncodedInstruction : Prop :=
  ∀ (s : State) (i : Instr),
    (∀ k : Nat, k < (encode i).length → (encode i)[k]? = some (s.mem.readByte (s.pc + BitVec.ofNat 16 k))) →
    fetchInstr s = .instr i

/-- A step of a running core runs the decoded instruction: when no fault is latched, the counter is above zero and the
three bytes at `pc` decode to an instruction, the step is exactly that instruction's effect
(40_execution_loop_and_primitives section 5; log entries 1 and 12). -/
def Obligations.StepRunsDecodedInstruction : Prop :=
  ∀ (s : State) (i : Instr), s.fault = none → 0 < s.cyc →
    decode (s.mem.readByte s.pc) (s.mem.readByte (s.pc + 1#16)) (s.mem.readByte (s.pc + 2#16)) = .instr i →
    step s = exec i s

/-- An instruction placed by `withFetchWord` is the one the next step runs, whatever the state was: faulted, idle, with
`pc` at the top of memory (the model's own interface, log entry 4). -/
def Obligations.PlacedInstructionRunsNext : Prop :=
  ∀ (s : State) (nbits w : Nat) (i : Instr), decodeTableWord nbits w = some i →
    step (s.withFetchWord nbits w) = exec i (s.withFetchWord nbits w)

/-- An idle core, no fault latched and the counter not above zero, holds its state: whatever byte lies at `pc` is not
fetched and does not fault (60_exceptions sections 1 and 5; log entry 1). -/
def Obligations.IdleCoreHoldsItsState : Prop :=
  ∀ s : State, s.fault = none → s.cyc ≤ 0 → step s = .next s

/-- Whatever a running core's step does, it lowers the counter by at least 1 and at most 6
(40_execution_loop_and_primitives section 5, the bounds on the counter; decisions D7, D12). -/
def Obligations.RunningStepLowersCounter : Prop :=
  ∀ s : State, s.fault = none → 0 < s.cyc →
    ∃ t, step s = .next t ∧ t.cyc ≤ s.cyc - 1 ∧ s.cyc - 6 ≤ t.cyc

/-! ### Primitives -/

/-- R70: `FetchByte` answers the byte at `pc`, advances `pc` by one modulo 65536 and costs one cycle; it is the only
primitive that advances `pc`; and every instruction that is not the call leaves `pc` past exactly its bytes. -/
def Obligations.FetchByteAloneAdvancesPc : Prop :=
  (∀ s : State, fetchByte s = (s.mem.readByte s.pc, { s with pc := s.pc + 1#16, cyc := s.cyc - 1 })) ∧
  (∀ s : State, s.pc = 0xFFFF#16 → (fetchByte s).1 = s.mem.readByte 0xFFFF#16 ∧ (fetchByte s).2.pc = 0x0000#16) ∧
  (∀ (s : State) (a v : Addr) (cfg : Config) (b : Byte),
    (readByteAt a s).2.pc = s.pc ∧ (readWordAt a s).2.pc = s.pc ∧ (readWordZP cfg b s).2.pc = s.pc ∧
    (writeWordAt a v s).pc = s.pc ∧ (pushByte b s).pc = s.pc ∧ (pushWord v s).pc = s.pc ∧
    (popByte s).2.pc = s.pc ∧ (internal s).pc = s.pc) ∧
  (∀ (i : Instr) (s t : State), isLoad i = true → exec i s = .next t →
    t.pc = s.pc + BitVec.ofNat 16 (encode i).length)

/-- R72: `ReadByteAt` answers the byte at the address, costs one cycle, and changes nothing else, `pc` above all. -/
def Obligations.ReadByteAtKeepsPc : Prop :=
  ∀ (a : Addr) (s : State), readByteAt a s = (s.mem.readByte a, { s with cyc := s.cyc - 1 }) ∧ (readByteAt a s).2.pc = s.pc

/-- A word read at an address is little-endian, its second byte at the next address modulo 65536; a zero-page pointer's
high byte lies in page 0 when `ZP_PTR_WRAP` and at the next address otherwise, and only the pointer 0xFF tells the two
apart (40_execution_loop_and_primitives section 1; decisions D9, D10). -/
def Obligations.WordReadsAreLittleEndian : Prop :=
  (∀ (a : Addr) (s : State),
    readWordAt a s = (ofBytes (s.mem.readByte (a + 1#16)) (s.mem.readByte a), { s with cyc := s.cyc - 2 })) ∧
  (∀ (cfg : Config) (p : Byte) (s : State), cfg.zpPtrWrap = true →
    readWordZP cfg p s =
      (ofBytes (s.mem.readByte (ofBytes 0x00#8 (p + 1#8))) (s.mem.readByte (ofBytes 0x00#8 p)),
        { s with cyc := s.cyc - 2 })) ∧
  (∀ (cfg : Config) (p : Byte) (s : State), cfg.zpPtrWrap = false →
    readWordZP cfg p s = readWordAt (ofBytes 0x00#8 p) s) ∧
  (∀ (cfg : Config) (p : Byte) (s : State), p ≠ 0xFF#8 → readWordZP cfg p s = readWordAt (ofBytes 0x00#8 p) s)

/-- A word written at an address is read back whole, low byte at the address and high byte at the next one modulo 65536,
and no other byte changes (20_memory section 2; decision D10). -/
def Obligations.WrittenWordReadsBack : Prop :=
  ∀ (a v : Addr) (s : State),
    (readWordAt a (writeWordAt a v s)).1 = v ∧
    (writeWordAt a v s).mem.readByte a = loByte v ∧
    (writeWordAt a v s).mem.readByte (a + 1#16) = hiByte v ∧
    (∀ b : Addr, b ≠ a → b ≠ a + 1#16 → (writeWordAt a v s).mem.readByte b = s.mem.readByte b) ∧
    (writeWordAt a v s).cyc = s.cyc - 2

/-- R32: after any sequence of byte writes since reset, a read answers the value most recently written to the address, or
0x00 if nothing has written it; and reset makes every byte 0x00 again. -/
def Obligations.ReadAnswersLatestWrite : Prop :=
  (∀ (writes : List (Addr × Byte)) (a : Addr),
    (writes.foldl (fun m w => m.writeByte w.1 w.2) State.reset.mem).readByte a =
      match writes.reverse.find? (fun w => w.1 == a) with
      | some w => w.2
      | none => 0x00#8) ∧
  (∀ (s t : State) (a : Addr), hostAct .reset s = some (.next t) → t.mem.readByte a = 0x00#8)

/-- A pushed word: the stack pointer is lowered by 2 modulo 256, the high byte lies one slot above the low byte, both in
the stack page even when the pointer wraps between them, and nothing else but two cycles changes
(40_execution_loop_and_primitives section 1; order and wrap: decision D11, log entry 10). -/
def Obligations.PushWordStaysInStackPage : Prop :=
  ∀ (w : Addr) (s : State),
    (pushWord w s).mem.readByte (stackAddr (s.sp - 1#8)) = hiByte w ∧
    (pushWord w s).mem.readByte (stackAddr (s.sp - 2#8)) = loByte w ∧
    (∀ b : Addr, b ≠ stackAddr (s.sp - 1#8) → b ≠ stackAddr (s.sp - 2#8) →
      (pushWord w s).mem.readByte b = s.mem.readByte b) ∧
    pushWord w s = { s with sp := s.sp - 2#8, cyc := s.cyc - 2, mem := (pushWord w s).mem }

/-- R77: `PopByte` reads at `{0x01, x[SP]}`, then raises the stack pointer by 1 modulo 256, for one cycle; after a
`PushByte` it answers the pushed byte and restores the stack pointer. -/
def Obligations.PopByteInvertsPushByte : Prop :=
  (∀ s : State, popByte s =
    (s.mem.readByte (stackAddr s.sp), { s with sp := s.sp + 1#8, cyc := s.cyc - 1 })) ∧
  (∀ (v : Byte) (s : State), (popByte (pushByte v s)).1 = v ∧ (popByte (pushByte v s)).2.sp = s.sp)

/-- The two ways to store a return address agree byte for byte unless the stack pointer is 0x01: a word write at the
lowered stack pointer then leaves the stack page, where the push wraps inside it
(40_execution_loop_and_primitives section 1; decision D11). -/
def Obligations.WordWriteMatchesPushOffWrap : Prop :=
  (∀ (w : Addr) (s : State) (b : Addr), s.sp ≠ 0x01#8 →
    (pushWord w s).mem.readByte b = (writeWordAt (stackAddr (s.sp - 2#8)) w s).mem.readByte b) ∧
  (∀ (w : Addr) (s : State), s.sp = 0x01#8 →
    (pushWord w s).mem.readByte 0x0100#16 = hiByte w ∧
    (writeWordAt (stackAddr (s.sp - 2#8)) w s).mem.readByte 0x0200#16 = hiByte w ∧
    (writeWordAt (stackAddr (s.sp - 2#8)) w s).mem.readByte 0x0100#16 = s.mem.readByte 0x0100#16)

/-- A page is crossed exactly when the low byte of the base and the unsigned index carry out of 8 bits
(40_execution_loop_and_primitives section 2, which derives it; the sum is modulo 65536, decision D10). -/
def Obligations.PageCrossIsCarryOfLowByte : Prop :=
  ∀ (base : Addr) (index : Byte),
    (base + zext16 index).toNat = (base.toNat + index.toNat) % 65536 ∧
    (pageCross base (base + zext16 index) = true ↔ 256 ≤ (loByte base).toNat + index.toNat)

/-- R87: `SetZN` sets `Z` to 1 iff the value is 0 and `N` to bit 7, keeps everything else, never sets both, and is the
post-condition of every load. -/
def Obligations.SetZNIsTheFlagUpdate : Prop :=
  (∀ (v : Byte) (s : State),
    setZN v s = { s with flags := { s.flags with z := decide (v = 0x00#8), n := v.getLsbD 7 } } ∧
    ¬ ((setZN v s).flags.z = true ∧ (setZN v s).flags.n = true) ∧
    (v = 0x00#8 → (setZN v s).flags.z = true ∧ (setZN v s).flags.n = false) ∧
    (1 ≤ v.toNat → v.toNat ≤ 0x7F → (setZN v s).flags.z = false ∧ (setZN v s).flags.n = false) ∧
    (0x80 ≤ v.toNat → (setZN v s).flags.z = false ∧ (setZN v s).flags.n = true)) ∧
  (∀ (i : Instr) (s t : State), isLoad i = true → exec i s = .next t → t.flags = (setZN t.a s).flags)

/-! ### The instructions: result, cycles, memory accesses -/

/-- R100: `LDA #$nn`. -/
def Obligations.LdaImmediateResult : Prop :=
  ∀ (nn : Byte) (s : State),
    exec (.ldaImm nn) s = .next (afterLoad s nn 2#16 2) ∧
    encode (.ldaImm nn) = [0xA9#8, nn] ∧
    busCycles (.ldaImm nn) s = [.read s.pc, .read (s.pc + 1#16)]

/-- R101: `LDA $nn`. -/
def Obligations.LdaZeroPageResult : Prop :=
  ∀ (nn : Byte) (s : State),
    exec (.ldaZp nn) s = .next (afterLoad s (s.mem.readByte (ofBytes 0x00#8 nn)) 2#16 3) ∧
    encode (.ldaZp nn) = [0xA5#8, nn] ∧
    busCycles (.ldaZp nn) s = [.read s.pc, .read (s.pc + 1#16), .read (ofBytes 0x00#8 nn)]

/-- `LDA $nn,X`: the sum wraps in page 0 (41_load, the section of that name; opcode byte: decision D3, log entry 8; the place
of the internal cycle in the access sequence: decision D8, log entry 17). -/
def Obligations.LdaZeroPageXResult : Prop :=
  ∀ (nn : Byte) (s : State),
    exec (.ldaZpx nn) s = .next (afterLoad s (s.mem.readByte (ofBytes 0x00#8 (nn + s.x))) 2#16 4) ∧
    encode (.ldaZpx nn) = [0xB5#8, nn] ∧
    busCycles (.ldaZpx nn) s =
      [.read s.pc, .read (s.pc + 1#16), .internal, .read (ofBytes 0x00#8 (nn + s.x))]

/-- R103: `LDA $hhll` (the opcode byte is decision D3, log entry 8). -/
def Obligations.LdaAbsoluteResult : Prop :=
  ∀ (hh ll : Byte) (s : State),
    exec (.ldaAbs (ofBytes hh ll)) s = .next (afterLoad s (s.mem.readByte (ofBytes hh ll)) 3#16 4) ∧
    encode (.ldaAbs (ofBytes hh ll)) = [0xAD#8, ll, hh] ∧
    busCycles (.ldaAbs (ofBytes hh ll)) s =
      [.read s.pc, .read (s.pc + 1#16), .read (s.pc + 2#16), .read (ofBytes hh ll)]

/-- R104: `LDA $hhll,X`: five cycles when the high byte of the effective address is not `hh`, else four
(the opcode byte is decision D3, log entry 8; the sum modulo 65536 is decision D10, log entry 19). -/
def Obligations.LdaAbsoluteXResult : Prop :=
  ∀ (hh ll : Byte) (s : State),
    let ea := ofBytes hh ll + zext16 s.x
    exec (.ldaAbsx (ofBytes hh ll)) s =
      .next (afterLoad s (s.mem.readByte ea) 3#16 (if hiByte ea ≠ hh then 5 else 4)) ∧
    encode (.ldaAbsx (ofBytes hh ll)) = [0xBD#8, ll, hh] ∧
    busCycles (.ldaAbsx (ofBytes hh ll)) s =
      [.read s.pc, .read (s.pc + 1#16), .read (s.pc + 2#16)] ++
        (if hiByte ea ≠ hh then [.internal, .read ea] else [.read ea])

/-- R105: `LDA $hhll,Y`: as R104 with `Y`; `X` is not read (the opcode byte is decision D3, log entry 8; the sum modulo
65536 is decision D10, log entry 19). -/
def Obligations.LdaAbsoluteYResult : Prop :=
  ∀ (hh ll : Byte) (s : State),
    let ea := ofBytes hh ll + zext16 s.y
    exec (.ldaAbsy (ofBytes hh ll)) s =
      .next (afterLoad s (s.mem.readByte ea) 3#16 (if hiByte ea ≠ hh then 5 else 4)) ∧
    encode (.ldaAbsy (ofBytes hh ll)) = [0xB9#8, ll, hh] ∧
    busCycles (.ldaAbsy (ofBytes hh ll)) s =
      [.read s.pc, .read (s.pc + 1#16), .read (s.pc + 2#16)] ++
        (if hiByte ea ≠ hh then [.internal, .read ea] else [.read ea])

/-- `LDA ($nn,X)` of this hardware (41_load, the section of that name; opcode byte: decision D3, log entry 8; cycles:
decision D7, log entry 9; pointer wrap: decision D9, log entry 7; the place of the internal cycle in the access sequence of
40_execution_loop_and_primitives section 7: decision D8, log entry 17). -/
def Obligations.LdaIndirectXResult : Prop :=
  ∀ (nn : Byte) (s : State),
    let p := nn + s.x
    let ea := ofBytes (s.mem.readByte (ofBytes 0x00#8 (p + 1#8))) (s.mem.readByte (ofBytes 0x00#8 p))
    exec (.ldaIndx nn) s = .next (afterLoad s (s.mem.readByte ea) 2#16 6) ∧
    encode (.ldaIndx nn) = [0xA1#8, nn] ∧
    busCycles (.ldaIndx nn) s =
      [.read s.pc, .read (s.pc + 1#16), .internal, .read (ofBytes 0x00#8 p), .read (ofBytes 0x00#8 (p + 1#8)), .read ea]

/-- `LDA ($nn),Y` of this hardware (41_load, the section of that name; cycles: decision D7, log entry 9; pointer wrap:
decision D9, log entry 7). -/
def Obligations.LdaIndirectYResult : Prop :=
  ∀ (nn : Byte) (s : State),
    let base := ofBytes (s.mem.readByte (ofBytes 0x00#8 (nn + 1#8))) (s.mem.readByte (ofBytes 0x00#8 nn))
    let ea := base + zext16 s.y
    exec (.ldaIndy nn) s =
      .next (afterLoad s (s.mem.readByte ea) 2#16 (if hiByte ea ≠ hiByte base then 6 else 5)) ∧
    encode (.ldaIndy nn) = [0xB1#8, nn] ∧
    busCycles (.ldaIndy nn) s =
      [.read s.pc, .read (s.pc + 1#16), .read (ofBytes 0x00#8 nn), .read (ofBytes 0x00#8 (nn + 1#8))] ++
        (if hiByte ea ≠ hiByte base then [.internal, .read ea] else [.read ea])

/-- The two indirect loads under either value of `ZP_PTR_WRAP`: off the pointer 0xFF the value does not matter, and at it
the high byte comes from 0x0000 or from 0x0100 (decision D9, log entry 7). -/
def Obligations.IndirectLoadsUnderEitherWrap : Prop :=
  (∀ (cfg : Config) (nn : Byte) (s : State), nn + s.x ≠ 0xFF#8 → exec (.ldaIndx nn) s = .next (ldaIndx cfg nn s)) ∧
  (∀ (cfg : Config) (nn : Byte) (s : State), nn ≠ 0xFF#8 → exec (.ldaIndy nn) s = .next (ldaIndy cfg nn s)) ∧
  (∀ (cfg : Config) (nn : Byte) (s : State), nn + s.x = 0xFF#8 →
    let hi := s.mem.readByte (if cfg.zpPtrWrap then 0x0000#16 else 0x0100#16)
    (ldaIndx cfg nn s).a = s.mem.readByte (ofBytes hi (s.mem.readByte 0x00FF#16))) ∧
  (∀ (cfg : Config) (s : State),
    let hi := s.mem.readByte (if cfg.zpPtrWrap then 0x0000#16 else 0x0100#16)
    (ldaIndy cfg 0xFF#8 s).a = s.mem.readByte (ofBytes hi (s.mem.readByte 0x00FF#16) + zext16 s.y))

/-- `JSR $hhll`: the address of the call's own last byte is pushed, high byte first; `pc` is the target; six cycles
(42_subroutine_call, the section of that name; decisions D8, D11, log entries 10 and 17). -/
def Obligations.JsrResult : Prop :=
  ∀ (hh ll : Byte) (s : State),
    let ret := s.pc + 2#16
    (∃ t : State, exec (.jsr (ofBytes hh ll)) s = .next t ∧
      t = { s with pc := ofBytes hh ll, sp := s.sp - 2#8, cyc := s.cyc - 6, mem := t.mem } ∧
      t.mem.readByte (stackAddr (s.sp - 1#8)) = hiByte ret ∧
      t.mem.readByte (stackAddr (s.sp - 2#8)) = loByte ret ∧
      t.mem.readByte (stackAddr t.sp) = loByte ret ∧
      t.mem.readByte (stackAddr (t.sp + 1#8)) = hiByte ret ∧
      (s.sp ≠ 0x01#8 → (readWordAt (stackAddr t.sp) t).1 = ret) ∧
      (∀ b : Addr, b ≠ stackAddr (s.sp - 1#8) → b ≠ stackAddr (s.sp - 2#8) → t.mem.readByte b = s.mem.readByte b)) ∧
    encode (.jsr (ofBytes hh ll)) = [0x20#8, ll, hh] ∧
    busCycles (.jsr (ofBytes hh ll)) s =
      [.read s.pc, .read (s.pc + 1#16), .read (s.pc + 2#16), .internal,
        .write (stackAddr (s.sp - 1#8)) (hiByte ret), .write (stackAddr (s.sp - 2#8)) (loByte ret)]

/-- R121: the return address is `pc` after the three bytes have been fetched, minus one, modulo 65536: the address of the
call's last byte; and the target is assembled with a shift of 8 bits. (Which two slots hold it is decision D11, log entry
10.) -/
def Obligations.ReturnAddressIsLastByteOfCall : Prop :=
  ∀ (hh ll : Byte) (s : State),
    (fetchWord (fetchByte s).2).2.pc - 1#16 = s.pc + 2#16 ∧
    returnAddress (fetchWord (fetchByte s).2).2 = s.pc + 2#16 ∧
    ∃ t : State, exec (.jsr (ofBytes hh ll)) s = .next t ∧
      ofBytes (t.mem.readByte (stackAddr (s.sp - 1#8))) (t.mem.readByte (stackAddr (s.sp - 2#8))) = s.pc + 2#16 ∧
      t.pc.toNat = 2 ^ 8 * hh.toNat + ll.toNat

/-- Every instruction completes on every operand and in every state: none faults or is refused
(41_load, what all eight share; 42_subroutine_call, "Exceptions: none"). -/
def Obligations.EveryInstructionCompletes : Prop :=
  ∀ (i : Instr) (s : State), ∃ t : State, exec i s = .next t

/-- The total cycle cost of each instruction is that of the table (40_execution_loop_and_primitives section 7; the three
indirect and `ABSY` rows: decision D7, log entry 9), between 2 and 6. -/
def Obligations.CycleCostsAreTheTable : Prop :=
  ∀ (i : Instr) (s : State),
    (∃ t : State, exec i s = .next t ∧ t.cyc = s.cyc - cycleCost i s) ∧ 2 ≤ cycleCost i s ∧ cycleCost i s ≤ 6

/-- The per-cycle sequence accounts for the instruction: one entry per cycle charged, and its writes, replayed in order,
make the memory the instruction leaves (40_execution_loop_and_primitives section 7; decision D8, log entry 17). -/
def Obligations.BusCyclesAccountForInstruction : Prop :=
  ∀ (i : Instr) (s t : State), exec i s = .next t →
    s.cyc - t.cyc = ((busCycles i s).length : Int) ∧ t.mem = replayWrites (busCycles i s) s.mem

/-! ### Frames -/

/-- The frame of the eight loads: `X`, `Y`, `SP`, the flags `C`, `I`, `D`, `B`, `V`, the fault latch and every byte of
memory are unchanged (41_load, what all eight share). -/
def Obligations.LoadFrame : Prop :=
  ∀ (i : Instr) (s t : State), isLoad i = true → exec i s = .next t →
    t.x = s.x ∧ t.y = s.y ∧ t.sp = s.sp ∧
    t.flags.c = s.flags.c ∧ t.flags.i = s.flags.i ∧ t.flags.d = s.flags.d ∧ t.flags.b = s.flags.b ∧
    t.flags.v = s.flags.v ∧ t.fault = s.fault ∧
    ∀ b : Addr, t.mem.readByte b = s.mem.readByte b

/-- The frame of the call: `A`, `X`, `Y`, all seven flags, the fault latch and every byte of memory but the two stack slots
below the old stack pointer are unchanged; `SP` is the register it also updates (42_subroutine_call, "Writes"). -/
def Obligations.JsrFrame : Prop :=
  ∀ (target : Addr) (s t : State), exec (.jsr target) s = .next t →
    t.a = s.a ∧ t.x = s.x ∧ t.y = s.y ∧ t.flags = s.flags ∧ t.fault = s.fault ∧
    ∀ b : Addr, b ≠ stackAddr (s.sp - 1#8) → b ≠ stackAddr (s.sp - 2#8) → t.mem.readByte b = s.mem.readByte b

/-! ### Rules of the whole machine -/

/-- R14: an instruction changes only the flags its rule names: the call and the fault change none, and no step changes
`C`, `I`, `D`, `B` or `V`. -/
def Obligations.FlagsChangeOnlyAsNamed : Prop :=
  (∀ s t : State, step s = .next t →
    t.flags.c = s.flags.c ∧ t.flags.i = s.flags.i ∧ t.flags.d = s.flags.d ∧ t.flags.b = s.flags.b ∧
    t.flags.v = s.flags.v) ∧
  (∀ (target : Addr) (s t : State), exec (.jsr target) s = .next t → t.flags = s.flags) ∧
  (∀ s t : State, step s = .next t → t.fault ≠ none → t.flags = s.flags)

/-- No step changes `X` or `Y`: only reset and the host do (10_state section 2, derived there). -/
def Obligations.IndexRegistersNeverChange : Prop :=
  ∀ s t : State, step s = .next t → t.x = s.x ∧ t.y = s.y

/-- No step changes a byte outside the stack page 0x0100 to 0x01FF (70_reset_and_hazards section 3, the only stores). -/
def Obligations.StepsStoreOnlyInStackPage : Prop :=
  ∀ (s t : State) (b : Addr), step s = .next t → hiByte b ≠ 0x01#8 → t.mem.readByte b = s.mem.readByte b

/-- Nothing in scope reads `A` or a flag: two states that differ only in these step to states that agree on everything
else, and stop alike (10_state sections 2 and 4, derived there). -/
def Obligations.AccumulatorAndFlagsAreNeverRead : Prop :=
  ∀ (s : State) (a' : Byte) (flags' : Flags),
    (∀ t : State, step s = .next t →
      ∃ t' : State, step { s with a := a', flags := flags' } = .next t' ∧
        t'.x = t.x ∧ t'.y = t.y ∧ t'.sp = t.sp ∧ t'.pc = t.pc ∧ t'.cyc = t.cyc ∧ t'.fault = t.fault ∧ t'.mem = t.mem) ∧
    (∀ r : Fault, step s = .fault r → step { s with a := a', flags := flags' } = .fault r)

/-- Each instruction reads only the index register of its mode: the value of the other one passes through
(41_load, the sections of the indexed modes: "`x[X]` is not read"). -/
def Obligations.ModesReadOnlyTheirIndex : Prop :=
  (∀ (i : Instr) (s t : State) (k : Byte), (∀ d8, i ≠ .ldaZpx d8) → (∀ a16, i ≠ .ldaAbsx a16) →
    (∀ d8, i ≠ .ldaIndx d8) → exec i s = .next t → exec i { s with x := k } = .next { t with x := k }) ∧
  (∀ (i : Instr) (s t : State) (k : Byte), (∀ a16, i ≠ .ldaAbsy a16) → (∀ d8, i ≠ .ldaIndy d8) →
    exec i s = .next t → exec i { s with y := k } = .next { t with y := k })

/-- A call reads its operand before it pushes, and what it pushes is what is fetched next: with the bytes `20 ll hh` at
`pc`, whatever the stack pointer, a running core steps to the target that lay there; and a target that is the low pushed
byte's slot holds that byte as the next opcode (20_memory section 8; decision D15). -/
def Obligations.CallTargetReadBeforePush : Prop :=
  ∀ (s : State) (hh ll : Byte), s.fault = none → 0 < s.cyc → s.mem.readByte s.pc = 0x20#8 →
    s.mem.readByte (s.pc + 1#16) = ll → s.mem.readByte (s.pc + 2#16) = hh →
    ∃ t : State, step s = .next t ∧ t.pc = ofBytes hh ll ∧
      (ofBytes hh ll = stackAddr (s.sp - 2#8) → t.mem.readByte t.pc = loByte (s.pc + 2#16))

/-- Calls only lower the stack pointer, by 2 modulo 256 and 6 cycles each; after 128 it has its starting value again
(42_subroutine_call, the section of the call's rules). -/
def Obligations.StackPointerAfterCalls : Prop :=
  ∀ (targets : List Addr) (s : State), ∃ t : State, runCalls targets s = .next t ∧
    t.sp = s.sp - BitVec.ofNat 8 (2 * targets.length) ∧ t.cyc = s.cyc - 6 * (targets.length : Int) ∧
    (targets.length = 128 → t.sp = s.sp)

/-! ### The fault -/

/-- Taking the fault: a running core whose opcode byte is none of the nine latches that byte and the address it was fetched
from, and leaves registers, flags and memory as they were at the boundary. `pc` and `cyc` after the fault are left out: the
spec says a claim should not depend on them (60_exceptions section 1; decision D12, log entries 2 and 3). -/
def Obligations.UnimplementedOpcodeLatchesFault : Prop :=
  ∀ s : State, s.fault = none → 0 < s.cyc → s.mem.readByte s.pc ∉ implementedOpcodes →
    ∃ t : State, step s = .next t ∧ t.fault = some { op := s.mem.readByte s.pc, addr := s.pc } ∧
      t.a = s.a ∧ t.x = s.x ∧ t.y = s.y ∧ t.sp = s.sp ∧ t.flags = s.flags ∧ t.mem = s.mem

/-- Only an unimplemented opcode faults: if a step of a core without a latched fault latches one, the core was running and
the byte at `pc` is none of the nine (60_exceptions section 1). -/
def Obligations.OnlyUnimplementedOpcodesFault : Prop :=
  ∀ s t : State, s.fault = none → step s = .next t → t.fault ≠ none →
    0 < s.cyc ∧ s.mem.readByte s.pc ∉ implementedOpcodes

/-- A faulted core is stopped: its step is the fault outcome with the latched record, `Execute` changes nothing, and of the
host's actions only reset clears the latch (60_exceptions section 1; decision D12, log entries 2 and 18). -/
def Obligations.FaultIsStickyUntilReset : Prop :=
  ∀ (s : State) (r : FaultRecord), s.fault = some r →
    step s = .fault (.unimplementedOpcode r.op r.addr) ∧
    (∀ b : Int, execute b s = .next s) ∧
    (∀ (act : HostAction) (t : State), act ≠ .reset → hostAct act s = some (.next t) → t.fault = some r) ∧
    hostAct .reset s = some (.next State.reset)

/-! ### Reset and the host -/

/-- Reset under any configuration: `pc` is `RESET_PC`, `SP` is `RESET_SP`, `A`, `X`, `Y` and all flags are 0, every byte of
memory is 0x00, the counter is 0, no fault is latched; and this hardware's reset is the one of its configuration
(10_state section 7; decisions D1, D2, D16, log entries 5, 6, 16). -/
def Obligations.ResetValues : Prop :=
  (∀ (cfg : Config) (b : Addr),
    (State.resetWith cfg).pc = cfg.resetPc ∧ (State.resetWith cfg).sp = cfg.resetSp ∧
    (State.resetWith cfg).a = 0x00#8 ∧ (State.resetWith cfg).x = 0x00#8 ∧ (State.resetWith cfg).y = 0x00#8 ∧
    (State.resetWith cfg).flags =
      { c := false, z := false, i := false, d := false, b := false, v := false, n := false } ∧
    (State.resetWith cfg).mem.readByte b = 0x00#8 ∧ (State.resetWith cfg).cyc = 0 ∧
    (State.resetWith cfg).fault = none) ∧
  State.reset = State.resetWith Config.hardware ∧ runState State.reset = .idle

/-- R151: reset twice is reset once, its result does not depend on the state before it, and it zeroes every memory cell. -/
def Obligations.ResetIsIdempotentAndTotal : Prop :=
  ∀ s : State, runState s ≠ .running →
    ∃ t : State, hostAct .reset s = some (.next t) ∧ hostAct .reset t = some (.next t) ∧
      (∀ b : Addr, t.mem.readByte b = 0x00#8) ∧
      (∀ s' : State, runState s' ≠ .running → hostAct .reset s' = some (.next t))

/-- The host acts exactly when no execute call is in progress; it writes what it names and nothing else; it changes `cyc`
only by reset or an execute call (10_state section 9; decision D13, log entry 14). -/
def Obligations.HostActsOnlyWhenNotRunning : Prop :=
  (∀ (act : HostAction) (s : State), hostAct act s = none ↔ runState s = .running) ∧
  (∀ (act : HostAction) (s t : State), hostAct act s = some (.next t) → act ≠ .reset →
    (∀ b : Int, act ≠ .execute b) → t.cyc = s.cyc ∧ t.fault = s.fault) ∧
  (∀ (s t : State) (a : Addr) (v : Byte), hostAct (.writeMem a v) s = some (.next t) →
    t = { s with mem := t.mem } ∧ ∀ b : Addr, t.mem.readByte b = if b = a then v else s.mem.readByte b) ∧
  (∀ (s t : State) (v : Byte), hostAct (.writeX v) s = some (.next t) → t = { s with x := v }) ∧
  (∀ (s t : State) (v : Byte), hostAct (.writeY v) s = some (.next t) → t = { s with y := v }) ∧
  (∀ (s t : State) (v : Byte), hostAct (.writeA v) s = some (.next t) → t = { s with a := v }) ∧
  (∀ (s t : State) (v : Byte), hostAct (.writeSp v) s = some (.next t) → t = { s with sp := v }) ∧
  (∀ (s t : State) (v : Addr), hostAct (.writePc v) s = some (.next t) → t = { s with pc := v }) ∧
  (∀ (s t : State) (k j : FlagName) (bit : Bool), hostAct (.writeFlag k bit) s = some (.next t) →
    t = { s with flags := t.flags } ∧ t.flags.get j = if j = k then bit else s.flags.get j)

/-! ### Execute -/

/-- A budget of zero or below runs no instruction: only `cyc` is loaded (40_execution_loop_and_primitives section 5;
decision D20). -/
def Obligations.NoBudgetRunsNothing : Prop :=
  ∀ (b : Int) (s : State), s.fault = none → b ≤ 0 → execute b s = .next { s with cyc := b }

/-- `Execute(1)` runs exactly one instruction (60_exceptions section 5, single-stepping;
40_execution_loop_and_primitives section 5). -/
def Obligations.ExecuteOneRunsOneInstruction : Prop :=
  ∀ s : State, s.fault = none → execute 1 s = step { s with cyc := 1 }

/-- Every execute call ends, normally or by a fault, and the counter stays between -5 and the budget: the last instruction
may overrun by up to 5 cycles (40_execution_loop_and_primitives section 5, the bounds on the counter; decisions D7, D12). -/
def Obligations.ExecuteEndsWithinBounds : Prop :=
  ∀ (b : Int) (s : State), s.fault = none → 1 ≤ b →
    ∃ t : State, execute b s = .next t ∧ (NormalEnd t ∨ FaultEnd t) ∧ -5 ≤ t.cyc ∧ t.cyc ≤ b

/-- `Execute(b)` is the machine's own step, iterated at most `b` times from the state with the counter loaded, until the
core is no longer running (40_execution_loop_and_primitives section 5; decision D12, log entries 1 and 2). -/
def Obligations.ExecuteRefinesIteratedStep : Prop :=
  ∀ (b : Int) (s t : State), s.fault = none → execute b s = .next t →
    runState t ≠ .running ∧
      ∃ k : Nat, k ≤ b.toNat ∧ Host.Core.run Sys2Proof.core k ({ s with cyc := b } : State) = .next t

/-! ### The invariant -/

/-- Every step keeps the invariant: canonical memory, the counter not below -5, `Z` and `N` not both set, a latched fault
genuine (20_memory section 1; 40_execution_loop_and_primitives sections 4 and 5; 60_exceptions section 1). -/
def Obligations.StepKeepsInv : Prop :=
  ∀ s t : State, s.Inv → step s = .next t → t.Inv

/-- The state after reset, under any configuration, meets the invariant (10_state section 7). -/
def Obligations.ResetMeetsInv : Prop :=
  (∀ cfg : Config, (State.resetWith cfg).Inv) ∧ State.reset.Inv
end

