-- ==== Sys2Proof/Laws/Memory.lean ====
section
/-! SUPPORT. Memory: what a read sees after a write, and that every memory operation keeps the canonical form.
The read laws hold of every cell list, canonical or not. -/

namespace Sys2Proof.Machine

/-! ### Cell lists -/

theorem Memory.get_remove (m : Memory) (k j : Nat) :
    (m.remove k).get j = if j = k then unlistedByte else m.get j := by
  induction m with
  | nil => simp [Memory.remove, Memory.get]
  | cons cell rest ih =>
    unfold Memory.remove at ih ⊢
    by_cases hk : cell.1 = k
    · have dropped : (cell :: rest).filter (fun c => c.1 != k) = rest.filter (fun c => c.1 != k) := by simp [hk]
      rw [dropped, ih]
      by_cases hj : j = k
      · simp [hj]
      · have : ¬ k = j := fun h => hj h.symm
        simp [hk, hj, Memory.get, this]
    · by_cases hj : cell.1 = j
      · have : ¬ j = k := fun h => hk (hj.trans h)
        simp [hj, this, Memory.get]
      · simp [hk, hj, ih, Memory.get]

theorem Memory.get_put (m : Memory) (k j : Nat) (v : Byte) (absent : ∀ cell ∈ m, cell.1 ≠ k) :
    (m.put k v).get j = if j = k then v else m.get j := by
  induction m with
  | nil => simp [Memory.put, Memory.get, eq_comm]
  | cons cell rest ih =>
    have ih := ih (fun c hc => absent c (List.mem_cons_of_mem _ hc))
    have here := absent cell List.mem_cons_self
    unfold Memory.put
    split
    · by_cases hj : j = k
      · simp [Memory.get, hj]
      · have : ¬ k = j := fun h => hj h.symm
        simp [Memory.get, hj, this]
    · by_cases hj : cell.1 = j
      · have : ¬ j = k := fun h => here (hj.trans h)
        simp [Memory.get, hj, this]
      · simp [Memory.get, hj, ih]

theorem Memory.mem_remove {m : Memory} {k : Nat} {cell : Host.Cell} :
    cell ∈ m.remove k ↔ cell ∈ m ∧ cell.1 ≠ k := by
  simp [Memory.remove]

theorem Memory.mem_put {m : Memory} {k : Nat} {v : Byte} {cell : Host.Cell} :
    cell ∈ m.put k v ↔ cell = (k, v) ∨ cell ∈ m := by
  induction m with
  | nil => simp [Memory.put]
  | cons head rest ih =>
    unfold Memory.put
    split
    · simp
    · simp only [List.mem_cons, ih]
      tauto

theorem Memory.put_sorted {m : Memory} {k : Nat} {v : Byte} (sorted : m.Pairwise (fun p q => p.1 < q.1))
    (absent : ∀ cell ∈ m, cell.1 ≠ k) : (m.put k v).Pairwise (fun p q => p.1 < q.1) := by
  induction m with
  | nil => simp [Memory.put]
  | cons head rest ih =>
    have ⟨above, restSorted⟩ := List.pairwise_cons.mp sorted
    have here := absent head List.mem_cons_self
    unfold Memory.put
    split
    case isTrue below =>
      refine List.pairwise_cons.mpr ⟨fun c hc => ?_, sorted⟩
      rcases List.mem_cons.mp hc with rfl | hc
      · exact below
      · exact Nat.lt_trans below (above c hc)
    case isFalse notBelow =>
      refine List.pairwise_cons.mpr
        ⟨fun c hc => ?_, ih restSorted (fun c hc => absent c (List.mem_cons_of_mem _ hc))⟩
      rcases Memory.mem_put.mp hc with rfl | hc
      · show head.1 < k
        omega
      · exact above c hc

/-! ### Reading after writing -/

theorem Memory.readByte_writeByte (m : Memory) (a b : Addr) (v : Byte) :
    (m.writeByte a v).readByte b = if b = a then v else m.readByte b := by
  have key : (b.toNat = a.toNat) ↔ b = a := BitVec.toNat_inj
  unfold Memory.writeByte Memory.readByte
  split
  · next hv => rw [Memory.get_remove, hv]; simp only [key]
  · rw [Memory.get_put _ _ _ _ (fun c hc => (Memory.mem_remove.mp hc).2), Memory.get_remove]
    simp only [key]
    split <;> simp_all

@[simp] theorem Memory.readByte_writeByte_self (m : Memory) (a : Addr) (v : Byte) :
    (m.writeByte a v).readByte a = v := by simp [Memory.readByte_writeByte]

theorem Memory.readByte_writeByte_ne {m : Memory} {a b : Addr} {v : Byte} (apart : b ≠ a) :
    (m.writeByte a v).readByte b = m.readByte b := by simp [Memory.readByte_writeByte, apart]

@[simp] theorem Memory.readByte_initialize (a : Addr) : Memory.initialize.readByte a = 0x00#8 := rfl

@[simp] theorem Memory.readByte_nil (a : Addr) : Memory.readByte [] a = 0x00#8 := rfl

/-! ### The canonical form is kept -/

theorem Memory.wf_initialize : Memory.initialize.wf := by decide

theorem reset_mem_wf : State.reset.mem.wf := by decide

theorem Memory.wf_remove {m : Memory} (canonical : m.wf) (k : Nat) : (m.remove k).wf :=
  ⟨canonical.1.filter _, fun c hc => canonical.2 c (Memory.mem_remove.mp hc).1⟩

theorem Memory.wf_writeByte {m : Memory} (canonical : m.wf) (a : Addr) (v : Byte) : (m.writeByte a v).wf := by
  have removed := Memory.wf_remove canonical a.toNat
  unfold Memory.writeByte
  split
  · exact removed
  · next nonzero =>
    refine ⟨Memory.put_sorted removed.1 (fun c hc => (Memory.mem_remove.mp hc).2), fun c hc => ?_⟩
    rcases Memory.mem_put.mp hc with rfl | hc
    · exact ⟨a.isLt, nonzero⟩
    · exact removed.2 c hc

/-- Every operation over `State` that writes memory keeps the canonical form. -/
theorem pushByte_mem_wf {s : State} (canonical : s.mem.wf) (v : Byte) : (pushByte v s).mem.wf :=
  Memory.wf_writeByte canonical _ _

theorem pushWord_mem_wf {s : State} (canonical : s.mem.wf) (w : Addr) : (pushWord w s).mem.wf :=
  pushByte_mem_wf (pushByte_mem_wf canonical _) _

theorem writeWordAt_mem_wf {s : State} (canonical : s.mem.wf) (a v : Addr) : (writeWordAt a v s).mem.wf :=
  Memory.wf_writeByte (Memory.wf_writeByte canonical _ _) _ _

end Sys2Proof.Machine
end

