-- ==== Sys2Proof/Laws/State.lean ====
section
/-! SUPPORT. One lemma per field per update of the state, true by unfolding the update once; no later proof unfolds one. -/

namespace Sys2Proof.Machine

variable (s : State)

/-! ### `charge` -/

@[simp] theorem charge_a (n : Int) : (charge n s).a = s.a := rfl
@[simp] theorem charge_x (n : Int) : (charge n s).x = s.x := rfl
@[simp] theorem charge_y (n : Int) : (charge n s).y = s.y := rfl
@[simp] theorem charge_sp (n : Int) : (charge n s).sp = s.sp := rfl
@[simp] theorem charge_pc (n : Int) : (charge n s).pc = s.pc := rfl
@[simp] theorem charge_flags (n : Int) : (charge n s).flags = s.flags := rfl
@[simp] theorem charge_cyc (n : Int) : (charge n s).cyc = s.cyc - n := rfl
@[simp] theorem charge_fault (n : Int) : (charge n s).fault = s.fault := rfl
@[simp] theorem charge_mem (n : Int) : (charge n s).mem = s.mem := rfl

/-! ### `internal` -/

@[simp] theorem internal_a : (internal s).a = s.a := rfl
@[simp] theorem internal_x : (internal s).x = s.x := rfl
@[simp] theorem internal_y : (internal s).y = s.y := rfl
@[simp] theorem internal_sp : (internal s).sp = s.sp := rfl
@[simp] theorem internal_pc : (internal s).pc = s.pc := rfl
@[simp] theorem internal_flags : (internal s).flags = s.flags := rfl
@[simp] theorem internal_cyc : (internal s).cyc = s.cyc - 1 := rfl
@[simp] theorem internal_fault : (internal s).fault = s.fault := rfl
@[simp] theorem internal_mem : (internal s).mem = s.mem := rfl

/-! ### `consumeByte` -/

@[simp] theorem consumeByte_a : (consumeByte s).a = s.a := rfl
@[simp] theorem consumeByte_x : (consumeByte s).x = s.x := rfl
@[simp] theorem consumeByte_y : (consumeByte s).y = s.y := rfl
@[simp] theorem consumeByte_sp : (consumeByte s).sp = s.sp := rfl
@[simp] theorem consumeByte_pc : (consumeByte s).pc = s.pc + 1#16 := rfl
@[simp] theorem consumeByte_flags : (consumeByte s).flags = s.flags := rfl
@[simp] theorem consumeByte_cyc : (consumeByte s).cyc = s.cyc - 1 := rfl
@[simp] theorem consumeByte_fault : (consumeByte s).fault = s.fault := rfl
@[simp] theorem consumeByte_mem : (consumeByte s).mem = s.mem := rfl

/-! ### `pushByte` -/

@[simp] theorem pushByte_a (v : Byte) : (pushByte v s).a = s.a := rfl
@[simp] theorem pushByte_x (v : Byte) : (pushByte v s).x = s.x := rfl
@[simp] theorem pushByte_y (v : Byte) : (pushByte v s).y = s.y := rfl
@[simp] theorem pushByte_sp (v : Byte) : (pushByte v s).sp = s.sp - 1#8 := rfl
@[simp] theorem pushByte_pc (v : Byte) : (pushByte v s).pc = s.pc := rfl
@[simp] theorem pushByte_flags (v : Byte) : (pushByte v s).flags = s.flags := rfl
@[simp] theorem pushByte_cyc (v : Byte) : (pushByte v s).cyc = s.cyc - 1 := rfl
@[simp] theorem pushByte_fault (v : Byte) : (pushByte v s).fault = s.fault := rfl
@[simp] theorem pushByte_mem (v : Byte) : (pushByte v s).mem = s.mem.writeByte (stackAddr (s.sp - 1#8)) v := rfl

/-! ### `raiseUnimplemented` -/

@[simp] theorem raiseUnimplemented_a (op : Byte) (addr : Addr) : (raiseUnimplemented op addr s).a = s.a := rfl
@[simp] theorem raiseUnimplemented_x (op : Byte) (addr : Addr) : (raiseUnimplemented op addr s).x = s.x := rfl
@[simp] theorem raiseUnimplemented_y (op : Byte) (addr : Addr) : (raiseUnimplemented op addr s).y = s.y := rfl
@[simp] theorem raiseUnimplemented_sp (op : Byte) (addr : Addr) : (raiseUnimplemented op addr s).sp = s.sp := rfl
@[simp] theorem raiseUnimplemented_pc (op : Byte) (addr : Addr) : (raiseUnimplemented op addr s).pc = s.pc := rfl
@[simp] theorem raiseUnimplemented_flags (op : Byte) (addr : Addr) : (raiseUnimplemented op addr s).flags = s.flags := rfl
@[simp] theorem raiseUnimplemented_cyc (op : Byte) (addr : Addr) : (raiseUnimplemented op addr s).cyc = s.cyc := rfl
@[simp] theorem raiseUnimplemented_fault (op : Byte) (addr : Addr) : (raiseUnimplemented op addr s).fault = some { op := op, addr := addr } := rfl
@[simp] theorem raiseUnimplemented_mem (op : Byte) (addr : Addr) : (raiseUnimplemented op addr s).mem = s.mem := rfl

/-! ### `setZN` -/

@[simp] theorem setZN_a (v : Byte) : (setZN v s).a = s.a := rfl
@[simp] theorem setZN_x (v : Byte) : (setZN v s).x = s.x := rfl
@[simp] theorem setZN_y (v : Byte) : (setZN v s).y = s.y := rfl
@[simp] theorem setZN_sp (v : Byte) : (setZN v s).sp = s.sp := rfl
@[simp] theorem setZN_pc (v : Byte) : (setZN v s).pc = s.pc := rfl
@[simp] theorem setZN_flags (v : Byte) : (setZN v s).flags = { s.flags with z := zeroFlag v, n := negativeFlag v } := rfl
@[simp] theorem setZN_cyc (v : Byte) : (setZN v s).cyc = s.cyc := rfl
@[simp] theorem setZN_fault (v : Byte) : (setZN v s).fault = s.fault := rfl
@[simp] theorem setZN_mem (v : Byte) : (setZN v s).mem = s.mem := rfl

/-! ### `loadA` -/

@[simp] theorem loadA_a (v : Byte) : (loadA v s).a = v := rfl
@[simp] theorem loadA_x (v : Byte) : (loadA v s).x = s.x := rfl
@[simp] theorem loadA_y (v : Byte) : (loadA v s).y = s.y := rfl
@[simp] theorem loadA_sp (v : Byte) : (loadA v s).sp = s.sp := rfl
@[simp] theorem loadA_pc (v : Byte) : (loadA v s).pc = s.pc := rfl
@[simp] theorem loadA_flags (v : Byte) : (loadA v s).flags = { s.flags with z := zeroFlag v, n := negativeFlag v } := rfl
@[simp] theorem loadA_cyc (v : Byte) : (loadA v s).cyc = s.cyc := rfl
@[simp] theorem loadA_fault (v : Byte) : (loadA v s).fault = s.fault := rfl
@[simp] theorem loadA_mem (v : Byte) : (loadA v s).mem = s.mem := rfl

/-! ### The results of the reading primitives -/

@[simp] theorem fetchByte_fst : (fetchByte s).1 = s.mem.readByte s.pc := rfl
@[simp] theorem fetchByte_snd : (fetchByte s).2 = consumeByte s := rfl
@[simp] theorem readByteAt_fst (addr : Addr) : (readByteAt addr s).1 = s.mem.readByte addr := rfl
@[simp] theorem readByteAt_snd (addr : Addr) : (readByteAt addr s).2 = charge 1 s := rfl

end Sys2Proof.Machine
end

