-- ==== Sys2Proof/Laws/Ops.lean ====
section
/-! SUPPORT. One equation per shared operation: everything it does, so that no later proof unfolds it. -/

namespace Sys2Proof.Machine

variable (s : State)

/-! ### Address arithmetic -/

theorem pc_add_two (p : Addr) : p + 1#16 + 1#16 = p + 2#16 := by
  rw [BitVec.add_assoc]; rfl

theorem pc_add_three (p : Addr) : p + 1#16 + 1#16 + 1#16 = p + 3#16 := by
  rw [BitVec.add_assoc, BitVec.add_assoc]; rfl

theorem pc_three_sub_one (p : Addr) : p + 3#16 - 1#16 = p + 2#16 := by
  bv_omega

theorem sp_sub_two (p : Byte) : p - 1#8 - 1#8 = p - 2#8 := by
  rw [BitVec.sub_sub]; rfl

/-! ### Bytes and addresses -/

@[simp] theorem loByte_ofBytes (hi lo : Byte) : loByte (ofBytes hi lo) = lo := by
  unfold loByte ofBytes
  ext k hk
  have bit := BitVec.getLsbD_append (x := hi) (y := lo) (i := k)
  simpa [hk, BitVec.getLsbD_eq_getElem] using bit

@[simp] theorem hiByte_ofBytes (hi lo : Byte) : hiByte (ofBytes hi lo) = hi := by
  unfold hiByte ofBytes
  ext k hk
  have bit := BitVec.getLsbD_append (x := hi) (y := lo) (i := 8 + k)
  simpa [BitVec.getLsbD_eq_getElem, hk] using bit

@[simp] theorem ofBytes_hi_lo (w : Addr) : ofBytes (hiByte w) (loByte w) = w := by
  unfold ofBytes hiByte loByte
  ext k hk
  simp only [BitVec.getElem_append, BitVec.getElem_extractLsb']
  split
  · simp [BitVec.getLsbD_eq_getElem, hk]
  · have : 8 + (k - 8) = k := by omega
    simp [this, BitVec.getLsbD_eq_getElem, hk]

theorem ofBytes_inj {h l h' l' : Byte} : ofBytes h l = ofBytes h' l' ↔ h = h' ∧ l = l' := by
  constructor
  · intro eq
    exact ⟨by simpa using congrArg hiByte eq, by simpa using congrArg loByte eq⟩
  · rintro ⟨rfl, rfl⟩; rfl

theorem stackAddr_inj {p q : Byte} : stackAddr p = stackAddr q ↔ p = q := by
  simp [stackAddr, ofBytes_inj]

/-! ### The instruction stream -/

theorem consumeWord_eq : consumeWord s = { s with pc := s.pc + 2#16, cyc := s.cyc - 2 } := by
  unfold consumeWord
  ext <;> simp [pc_add_two]
  omega

/-- The state after all three bytes of an instruction have been fetched. -/
theorem consumeWord_consumeByte :
    consumeWord (consumeByte s) = { s with pc := s.pc + 3#16, cyc := s.cyc - 3 } := by
  unfold consumeWord
  ext <;> simp [pc_add_three]
  omega

/-- The state after both bytes of an instruction have been fetched. -/
theorem consumeByte_consumeByte :
    consumeByte (consumeByte s) = { s with pc := s.pc + 2#16, cyc := s.cyc - 2 } := consumeWord_eq s

/-! ### Reading words -/

theorem readWordAt_eq (a : Addr) :
    readWordAt a s = (ofBytes (s.mem.readByte (a + 1#16)) (s.mem.readByte a), charge 2 s) := by
  refine Prod.ext (by simp [readWordAt]) ?_
  ext <;> simp [readWordAt]
  omega

theorem readWordZP_eq (cfg : Config) (p : Byte) :
    readWordZP cfg p s =
      (ofBytes (s.mem.readByte (zpPointerHigh cfg p)) (s.mem.readByte (zeroPage p)), charge 2 s) := by
  refine Prod.ext (by simp [readWordZP]) ?_
  ext <;> simp [readWordZP]
  omega

/-! ### Loads -/

/-- The end of a load from an address computed with the state `t`. -/
theorem loadFrom_eq (a : Addr) (t : State) :
    loadFrom (a, t) = { t with
      a := t.mem.readByte a
      flags := { t.flags with z := zeroFlag (t.mem.readByte a), n := negativeFlag (t.mem.readByte a) }
      cyc := t.cyc - 1 } := rfl

theorem indexed_eq (base : Addr) (index : Byte) :
    indexed base index s =
      (base + zext16 index, charge (if pageCross base (base + zext16 index) then 1 else 0) s) := by
  unfold indexed
  refine Prod.ext rfl ?_
  by_cases h : pageCross base (base + zext16 index) <;> ext <;> simp [h]

/-! ### The stack -/

theorem pushWord_eq (w : Addr) :
    pushWord w s = { s with
      sp := s.sp - 2#8
      mem := (s.mem.writeByte (stackAddr (s.sp - 1#8)) (hiByte w)).writeByte (stackAddr (s.sp - 2#8)) (loByte w)
      cyc := s.cyc - 2 } := by
  unfold pushWord
  ext <;> simp [sp_sub_two]
  omega

/-- Everything a call does to the state, from the boundary before it. -/
theorem callTo_eq (target : Addr) :
    callTo target (consumeWord (consumeByte s)) = { s with
      pc := target
      sp := s.sp - 2#8
      mem := (s.mem.writeByte (stackAddr (s.sp - 1#8)) (hiByte (s.pc + 2#16))).writeByte
        (stackAddr (s.sp - 2#8)) (loByte (s.pc + 2#16))
      cyc := s.cyc - 6 } := by
  rw [consumeWord_consumeByte]
  unfold callTo returnAddress
  rw [pushWord_eq]
  ext <;> simp [pc_three_sub_one]
  omega

/-! ### The run state and the step -/

theorem runState_running_iff : runState s = .running ↔ s.fault = none ∧ 0 < s.cyc := by
  unfold runState
  cases s.fault <;> simp

theorem runState_idle_iff : runState s = .idle ↔ s.fault = none ∧ s.cyc ≤ 0 := by
  unfold runState
  cases s.fault <;> simp

theorem runState_faulted_iff : runState s = .faulted ↔ s.fault ≠ none := by
  unfold runState
  cases s.fault
  · by_cases h : 0 < s.cyc <;> simp [h]
  · simp

/-- Everything a step can do, by the run state (40 R89, 60 R132, R142). -/
theorem step_cases :
    (∃ r, s.fault = some r ∧ step s = .fault (.unimplementedOpcode r.op r.addr)) ∨
    (s.fault = none ∧ s.cyc ≤ 0 ∧ step s = .next s) ∨
    (s.fault = none ∧ 0 < s.cyc ∧ ∃ i, fetchInstr s = .instr i ∧ step s = exec i s) ∨
    (s.fault = none ∧ 0 < s.cyc ∧ ∃ op, fetchInstr s = .unimplemented op ∧
      step s = .next (raiseUnimplemented op s.pc (consumeByte s))) := by
  unfold step turn stepInstr
  cases hf : s.fault with
  | some r => exact .inl ⟨r, rfl, rfl⟩
  | none =>
    by_cases hc : 0 < s.cyc
    · cases hd : fetchInstr s with
      | instr i => exact .inr (.inr (.inl ⟨rfl, hc, i, rfl, by simp [hc]⟩))
      | unimplemented op => exact .inr (.inr (.inr ⟨rfl, hc, op, rfl, by simp [hc]⟩))
    · exact .inr (.inl ⟨rfl, by omega, by simp [hc]⟩)

variable {s}

theorem step_of_running (unlatched : s.fault = none) (budget : 0 < s.cyc) : step s = stepInstr s := by
  simp [step, turn, unlatched, budget]

/-! ### The loop and `Execute` -/

theorem loop_of_not_running (stopped : runState s ≠ .running) (fuel : Nat) : loop fuel s = .next s := by
  cases fuel with
  | zero => rfl
  | succ fuel => unfold loop; split <;> simp_all

theorem loop_of_running {t : State} (running : runState s = .running) (ran : stepInstr s = .next t) (fuel : Nat) :
    loop (fuel + 1) s = loop fuel t := by
  simp only [loop, running, ran]

theorem execute_unlatched (unlatched : s.fault = none) (b : Int) : execute b s = loop b.toNat { s with cyc := b } := by
  unfold execute
  split
  · next latched => rw [unlatched] at latched; cases latched
  · rfl

theorem execute_latched {r : FaultRecord} (latched : s.fault = some r) (b : Int) : execute b s = .next s := by
  simp [execute, latched]

end Sys2Proof.Machine
end

