-- ==== Sys2Proof/Laws/PerInstr.lean ====
section
/-! SUPPORT. The family `EncodedLength`, one lemma per instruction: its encoding has the length its format gives, 2 or 3
bytes, and begins with an opcode byte the map sends to its handler (30_encoding R50, R53). -/

namespace Sys2Proof.Laws.EncodedLength

/-- The encoding of `i` has the length of its format and begins with its opcode byte. -/
def Statement (i : Instr) : Prop :=
  (encode i).length = i.length ∧ 2 ≤ i.length ∧ i.length ≤ 3 ∧ (encode i).head?.bind decodeOpcode = some i.handler

theorem ldaImm (d8 : Byte) : Statement (.ldaImm d8) := ⟨rfl, Nat.le_refl 2, Nat.le_succ 2, rfl⟩
theorem ldaZp (d8 : Byte) : Statement (.ldaZp d8) := ⟨rfl, Nat.le_refl 2, Nat.le_succ 2, rfl⟩
theorem ldaZpx (d8 : Byte) : Statement (.ldaZpx d8) := ⟨rfl, Nat.le_refl 2, Nat.le_succ 2, rfl⟩
theorem ldaAbs (a16 : Addr) : Statement (.ldaAbs a16) := ⟨rfl, Nat.le_succ 2, Nat.le_refl 3, rfl⟩
theorem ldaAbsx (a16 : Addr) : Statement (.ldaAbsx a16) := ⟨rfl, Nat.le_succ 2, Nat.le_refl 3, rfl⟩
theorem ldaAbsy (a16 : Addr) : Statement (.ldaAbsy a16) := ⟨rfl, Nat.le_succ 2, Nat.le_refl 3, rfl⟩
theorem ldaIndx (d8 : Byte) : Statement (.ldaIndx d8) := ⟨rfl, Nat.le_refl 2, Nat.le_succ 2, rfl⟩
theorem ldaIndy (d8 : Byte) : Statement (.ldaIndy d8) := ⟨rfl, Nat.le_refl 2, Nat.le_succ 2, rfl⟩
theorem jsr (a16 : Addr) : Statement (.jsr a16) := ⟨rfl, Nat.le_succ 2, Nat.le_refl 3, rfl⟩

end Sys2Proof.Laws.EncodedLength
end

