-- ==== Sys2Proof/Laws/Ports.lean ====
section
/-! SUPPORT. The memory port: one lemma per constructor of a cycle and a transaction, and how sequences compose. -/

namespace Sys2Proof.Machine

variable (m : Memory)

@[simp] theorem Memory.serve_read (addr : Addr) (rdata : Byte) : m.serve (.read addr rdata) = m := rfl
@[simp] theorem Memory.serve_write (addr : Addr) (wdata : Byte) : m.serve (.write addr wdata) = m.writeByte addr wdata := rfl
@[simp] theorem Memory.serve_init : m.serve .init = Memory.initialize := rfl

@[simp] theorem Memory.serveAll_nil : m.serveAll [] = m := rfl
@[simp] theorem Memory.serveAll_cons (tr : MemTransaction) (rest : List MemTransaction) :
    m.serveAll (tr :: rest) = (m.serve tr).serveAll rest := rfl
theorem Memory.serveAll_append (before after : List MemTransaction) :
    m.serveAll (before ++ after) = (m.serveAll before).serveAll after := List.foldl_append

/-- Serving any transaction keeps the canonical form. -/
theorem Memory.wf_serve {m : Memory} (canonical : m.wf) (tr : MemTransaction) : (m.serve tr).wf := by
  cases tr with
  | read addr rdata => exact canonical
  | write addr wdata => exact Memory.wf_writeByte canonical addr wdata
  | init => exact Memory.wf_initialize

/-- The transactions of a list of cycles make the memory that its writes make. -/
theorem serveAll_portTransactions (cycles : List BusCycle) :
    m.serveAll (portTransactions cycles m) = replayWrites cycles m := by
  induction cycles generalizing m with
  | nil => rfl
  | cons cycle rest ih => cases cycle <;> simp [portTransactions, replayWrites, ih]

/-- No cycle of an instruction asks the memory to initialize. -/
theorem init_not_mem_portTransactions (cycles : List BusCycle) :
    MemTransaction.init ∉ portTransactions cycles m := by
  induction cycles generalizing m with
  | nil => simp [portTransactions]
  | cons cycle rest ih => cases cycle <;> simp [portTransactions, ih]

/-- At most one transaction a cycle. -/
theorem portTransactions_length_le (cycles : List BusCycle) :
    (portTransactions cycles m).length ≤ cycles.length := by
  induction cycles generalizing m with
  | nil => simp [portTransactions]
  | cons cycle rest ih =>
    cases cycle <;> simp [portTransactions, ih]
    exact Nat.le_succ_of_le (ih m)

theorem stepTransactions_of_running {s : State} (running : runState s = .running) :
    stepTransactions s = portTransactions (stepBusCycles s) s.mem := by
  simp only [stepTransactions, running]

theorem stepTransactions_of_not_running {s : State} (stopped : runState s ≠ .running) : stepTransactions s = [] := by
  unfold stepTransactions
  split <;> simp_all

/-! ### `mem_init` is raised by reset only (10_state R24) -/

theorem init_not_mem_stepTransactions (s : State) : MemTransaction.init ∉ stepTransactions s := by
  by_cases running : runState s = .running
  · rw [stepTransactions_of_running running]
    exact init_not_mem_portTransactions _ _
  · simp [stepTransactions_of_not_running running]

theorem init_not_mem_loopTransactions (fuel : Nat) (s : State) : MemTransaction.init ∉ loopTransactions fuel s := by
  induction fuel generalizing s with
  | zero => simp [loopTransactions]
  | succ fuel ih =>
    unfold loopTransactions
    cases runState s with
    | idle => simp
    | faulted => simp
    | running => cases stepInstr s <;> simp [init_not_mem_stepTransactions, ih]

theorem init_not_mem_executeTransactions (b : Int) (s : State) : MemTransaction.init ∉ executeTransactions b s := by
  unfold executeTransactions
  split
  · simp
  · exact init_not_mem_loopTransactions _ _

theorem init_mem_hostTransactions_iff (act : HostAction) (s : State) :
    MemTransaction.init ∈ hostTransactions act s ↔ act = .reset := by
  cases act <;> simp [hostTransactions, init_not_mem_executeTransactions]

end Sys2Proof.Machine
end

