-- ==== Sys2Proof/Tests/Slice0.lean ====
section
/-! SUPPORT. Tests of the model and witnesses of the statements' hypotheses. Expected results are those of
95_test_vectors (the vector is named at each test) or of the tables of 30_encoding. -/

namespace Sys2Proof.Tests

open Sys2Proof.Machine

/-! ### Helpers -/

/-- A state with bytes written by the host, in order. -/
def poke (s : State) (cells : List (Addr × Byte)) : State :=
  { s with mem := cells.foldl (fun m w => m.writeByte w.1 w.2) s.mem }

/-- After reset, bytes written, `pc` set, `Execute(1)` started. -/
def ready (pc : Addr) (cells : List (Addr × Byte)) : State := { poke State.reset cells with pc := pc, cyc := 1 }

/-- A view of the next state. -/
def see {α : Type} (o : Host.Outcome State Fault Refusal) (view : State → α) : Option α :=
  match o with
  | .next t => some (view t)
  | .fault _ => none
  | .refused _ => none

/-- What the load vectors of 95_test_vectors 2.1 list: `a`, `Z`, `N`, `pc`, cost. -/
def loadView (t : State) : Byte × Bool × Bool × Addr × Int := (t.a, t.flags.z, t.flags.n, t.pc, 1 - t.cyc)

/-- What the call vectors of 2.2 list: `pc`, `SP`, `cyc`, and the bytes at two stack slots. -/
def callView (hi lo : Addr) (t : State) : Addr × Byte × Int × Byte × Byte :=
  (t.pc, t.sp, t.cyc, t.mem.readByte hi, t.mem.readByte lo)

/-! ### Well-formedness smoke test -/

theorem test_wf_accepts_encodings : wellFormedBytes [0xA9#8, 0x00#8] = true ∧ wellFormedBytes [0x20#8, 0x00#8, 0x02#8] = true := by
  decide
theorem test_wf_refuses_empty : wellFormedBytes [] = false := by decide
theorem test_wf_refuses_unimplemented : wellFormedBytes [0xEA#8] = false ∧ wellFormedBytes [0x00#8, 0x00#8] = false := by decide
theorem test_wf_refuses_short : wellFormedBytes [0xA9#8] = false ∧ wellFormedBytes [0xAD#8, 0x34#8] = false := by decide
theorem test_wf_refuses_long : wellFormedBytes [0xA9#8, 0x00#8, 0x00#8] = false := by decide
/-- R55: no term of `Instr` is ill formed, at the extreme operands either. -/
theorem test_wf_every_operand : (Instr.ldaImm 0xFF#8).wellFormed = true ∧ (Instr.jsr 0xFFFF#16).wellFormed = true := by decide
theorem test_decode_errors_by_name :
    decodeBytes [] = .error .noByte ∧ decodeBytes [0x60#8] = .error (.unimplemented 0x60#8) ∧
    decodeBytes [0x20#8, 0x00#8] = .error (.truncated 0x20#8) := by
  refine ⟨rfl, rfl, rfl⟩

/-! ### Decoding: words written out bit by bit from 30_encoding R51 and R53, the last byte's bits first -/

theorem test_decode_lda_imm : decodeTableWord 16 0b0100001010101001 = some (.ldaImm 0x42#8) := by decide
theorem test_decode_lda_zp : decodeTableWord 16 0b0100001010100101 = some (.ldaZp 0x42#8) := by decide
theorem test_decode_lda_zpx : decodeTableWord 16 0b1111000010110101 = some (.ldaZpx 0xF0#8) := by decide
theorem test_decode_lda_abs : decodeTableWord 24 0b000100100011010010101101 = some (.ldaAbs 0x1234#16) := by decide
theorem test_decode_lda_absx : decodeTableWord 24 0b000000001111111110111101 = some (.ldaAbsx 0x00FF#16) := by decide
theorem test_decode_lda_absy : decodeTableWord 24 0b000100101111000010111001 = some (.ldaAbsy 0x12F0#16) := by decide
theorem test_decode_lda_indx : decodeTableWord 16 0b0010000010100001 = some (.ldaIndx 0x20#8) := by decide
theorem test_decode_lda_indy : decodeTableWord 16 0b0011000010110001 = some (.ldaIndy 0x30#8) := by decide
theorem test_decode_jsr : decodeTableWord 24 0b000000100000000000100000 = some (.jsr 0x0200#16) := by decide
/-- A word shorter than its instruction has zero operand bits. -/
theorem test_decode_short_word : decodeTableWord 8 0xFFAD = some (.ldaAbs 0x0000#16) := by decide
/-- The bytes that are `LDX`, `LDY`, `JMP`, `RTS` on other machines are unimplemented (95_test_vectors 2.3). -/
theorem test_decode_unimplemented :
    ([0x00, 0xEA, 0x60, 0x40, 0x4C, 0xA2, 0xA6, 0xB6, 0xAE, 0xBE, 0xA0, 0xA4, 0xB4, 0xAC, 0xBC, 0xA8, 0xAA, 0x21, 0x1F,
      0xA3, 0xB2, 0xFF].all (fun w => decodeTableWord 24 w == none)) = true := by decide
set_option maxRecDepth 8000 in
/-- R53, R54: nine bytes are implemented and 247 are not. -/
theorem test_decode_247_unimplemented :
    ((List.range 256).countP (fun n => decodeOpcode (BitVec.ofNat 8 n) == none)) = 247 := by decide
theorem test_encode_little_endian : encode (.jsr 0x1234#16) = [0x20#8, 0x34#8, 0x12#8] := by decide
theorem test_asm_text : asmText (.ldaIndx 0x2F#8) = "LDA ($2F,X)" := by decide

/-! ### Loads (95_test_vectors 2.1) -/

/-- LD3: `Z` and `N` cleared, the other five flags stay 1. -/
theorem test_LD3_imm_keeps_other_flags :
    see (step { ready 0x0200#16 [(0x0200#16, 0xA9#8), (0x0201#16, 0x7F#8)] with
        flags := { c := true, z := true, i := true, d := true, b := true, v := true, n := true } })
      (fun t => (loadView t, t.flags)) =
      some ((0x7F#8, false, false, 0x0202#16, 2),
        { c := true, z := false, i := true, d := true, b := true, v := true, n := false }) := by decide
/-- LD4: `pc` wraps inside the instruction. -/
theorem test_LD4_imm_pc_wraps :
    see (step (ready 0xFFFF#16 [(0xFFFF#16, 0xA9#8), (0x0000#16, 0xFF#8)])) loadView =
      some (0xFF#8, false, true, 0x0001#16, 2) := by decide
/-- LD6: highest zero-page address. -/
theorem test_LD6_zp :
    see (step (ready 0x0200#16 [(0x0200#16, 0xA5#8), (0x0201#16, 0xFF#8), (0x00FF#16, 0x80#8)])) loadView =
      some (0x80#8, false, true, 0x0202#16, 3) := by decide
/-- LD7: unwritten memory reads 00. -/
theorem test_LD7_zp_unwritten :
    see (step { ready 0x0200#16 [(0x0200#16, 0xA5#8), (0x0201#16, 0x42#8)] with a := 0x77#8 }) loadView =
      some (0x00#8, true, false, 0x0202#16, 3) := by decide
/-- LD8: the sum wraps in page 0; 0100 is not read. -/
theorem test_LD8_zpx_wraps :
    see (step { ready 0x0200#16 [(0x0200#16, 0xB5#8), (0x0201#16, 0xFF#8), (0x0000#16, 0x11#8), (0x0100#16, 0x99#8)] with
        x := 0x01#8 }) loadView =
      some (0x11#8, false, false, 0x0202#16, 4) := by decide
/-- LD12: loads its own opcode. -/
theorem test_LD12_abs_own_opcode :
    see (step (ready 0x0200#16 [(0x0200#16, 0xAD#8), (0x0201#16, 0x00#8), (0x0202#16, 0x02#8)])) loadView =
      some (0xAD#8, false, true, 0x0203#16, 4) := by decide
/-- LD13: the instruction straddles FFFF and 0000. -/
theorem test_LD13_abs_straddles :
    see (step (ready 0xFFFE#16 [(0xFFFE#16, 0xAD#8), (0xFFFF#16, 0x34#8), (0x0000#16, 0x12#8), (0x1234#16, 0x66#8)])) loadView =
      some (0x66#8, false, false, 0x0001#16, 4) := by decide
/-- LD16: the address wraps FFFF to 0000, and that counts as a crossing. -/
theorem test_LD16_absx_wraps :
    see (step { ready 0x0200#16 [(0x0200#16, 0xBD#8), (0x0201#16, 0xFF#8), (0x0202#16, 0xFF#8), (0x0000#16, 0x44#8)] with
        x := 0x01#8 }) loadView =
      some (0x44#8, false, false, 0x0203#16, 5) := by decide
/-- LD18: the largest index without a crossing. -/
theorem test_LD18_absx_no_cross :
    see (step { ready 0x0200#16 [(0x0200#16, 0xBD#8), (0x0201#16, 0x00#8), (0x0202#16, 0x20#8), (0x20FF#16, 0x06#8)] with
        x := 0xFF#8 }) loadView =
      some (0x06#8, false, false, 0x0203#16, 4) := by decide
/-- LD20 and LD21: the Y form, `X` not used, without and with a crossing. -/
theorem test_LD20_absy :
    see (step { ready 0x0200#16 [(0x0200#16, 0xB9#8), (0x0201#16, 0xF0#8), (0x0202#16, 0x12#8), (0x12FF#16, 0x01#8)] with
        x := 0x55#8, y := 0x0F#8 }) loadView =
      some (0x01#8, false, false, 0x0203#16, 4) := by decide
theorem test_LD21_absy_cross :
    see (step { ready 0x0200#16 [(0x0200#16, 0xB9#8), (0x0201#16, 0xF0#8), (0x0202#16, 0x12#8), (0x1300#16, 0x90#8)] with
        x := 0x55#8, y := 0x10#8 }) loadView =
      some (0x90#8, false, true, 0x0203#16, 5) := by decide
/-- LD23: the pointer address FE + 03 wraps to 01. -/
theorem test_LD23_indx_pointer_wraps :
    see (step { ready 0x0200#16 [(0x0200#16, 0xA1#8), (0x0201#16, 0xFE#8), (0x0001#16, 0x00#8), (0x0002#16, 0x40#8),
        (0x4000#16, 0x01#8)] with x := 0x03#8 }) loadView =
      some (0x01#8, false, false, 0x0202#16, 6) := by decide
/-- LD24: a pointer at 00FF, `ZP_PTR_WRAP` true, and the value with it false. -/
theorem test_LD24_indx_pointer_at_00FF :
    let s := ready 0x0200#16 [(0x0200#16, 0xA1#8), (0x0201#16, 0xFF#8), (0x00FF#16, 0x78#8), (0x0000#16, 0x56#8),
      (0x0100#16, 0x99#8), (0x5678#16, 0x0A#8), (0x9978#16, 0x0B#8)]
    see (step s) loadView = some (0x0A#8, false, false, 0x0202#16, 6) ∧
      (ldaIndx { Config.hardware with zpPtrWrap := false } 0xFF#8 s).a = 0x0B#8 := by decide
/-- LD27: base FFFF wraps to 0000; a crossing. -/
theorem test_LD27_indy_base_wraps :
    see (step { ready 0x0200#16 [(0x0200#16, 0xB1#8), (0x0201#16, 0x30#8), (0x0030#16, 0xFF#8), (0x0031#16, 0xFF#8),
        (0x0000#16, 0x42#8)] with y := 0x01#8 }) loadView =
      some (0x42#8, false, false, 0x0202#16, 6) := by decide
/-- LD28: a pointer at 00FF, `ZP_PTR_WRAP` true, and the value with it false. -/
theorem test_LD28_indy_pointer_at_00FF :
    let s := ready 0x0200#16 [(0x0200#16, 0xB1#8), (0x0201#16, 0xFF#8), (0x00FF#16, 0x00#8), (0x0000#16, 0x03#8),
      (0x0100#16, 0x99#8), (0x0300#16, 0x0C#8), (0x9900#16, 0x0D#8)]
    see (step s) loadView = some (0x0C#8, false, false, 0x0202#16, 5) ∧
      (ldaIndy { Config.hardware with zpPtrWrap := false } 0xFF#8 s).a = 0x0D#8 := by decide

/-! ### The call (95_test_vectors 2.2) -/

/-- J2: the stack pointer wraps between the two bytes. -/
theorem test_J2_jsr_sp_wraps :
    see (step { ready 0x0200#16 [(0x0200#16, 0x20#8), (0x0201#16, 0x00#8), (0x0202#16, 0x03#8)] with sp := 0x01#8 })
      (callView 0x0100#16 0x01FF#16) = some (0x0300#16, 0xFF#8, -5, 0x02#8, 0x02#8) := by decide
/-- J9: the pushes overwrite the call's own operand bytes after they were read. -/
theorem test_J9_jsr_overwrites_itself :
    see (step { ready 0x01F0#16 [(0x01F0#16, 0x20#8), (0x01F1#16, 0x00#8), (0x01F2#16, 0x03#8)] with sp := 0xF3#8 })
      (callView 0x01F2#16 0x01F1#16) = some (0x0300#16, 0xF1#8, -5, 0x01#8, 0xF2#8) := by decide

/-! ### Fault, budget, primitives (95_test_vectors 2.3 to 2.6) -/

/-- FA1: cleared memory faults at once. -/
theorem test_FA1_cleared_memory_faults :
    see (execute 1 State.reset) (fun t => (t.fault, t.pc, t.cyc)) =
      some (some { op := 0x00#8, addr := 0xFFFC#16 }, 0xFFFD#16, 0) := by decide
/-- 2.3: nothing but the opcode byte is fetched, nothing else changes. -/
theorem test_unimplemented_fetches_one_byte :
    let s := ready 0x0200#16 [(0x0200#16, 0xEA#8), (0x0201#16, 0xA9#8)]
    stepBusCycles s = [.read 0x0200#16] ∧
      see (step s) (fun t => (t.fault, t.a, t.sp)) = some (some { op := 0xEA#8, addr := 0x0200#16 }, 0x00#8, 0xFD#8) := by decide
/-- FA3: with the fault latched an execute call changes nothing. -/
theorem test_FA3_execute_faulted :
    let s := { State.reset with fault := some { op := 0x00#8, addr := 0xFFFE#16 }, pc := 0xFFFF#16 }
    see (execute 10 s) id = some s := by decide
/-- BU2, BU4: no instruction on a negative budget; two instructions on a budget of 3. -/
theorem test_BU2_negative_budget :
    see (execute (-3) (poke State.reset [(0xFFFC#16, 0xAD#8)])) (fun t => (t.cyc, t.pc)) = some (-3, 0xFFFC#16) := by decide
theorem test_BU4_budget_overrun :
    see (execute 3 { poke State.reset [(0x0200#16, 0xA9#8), (0x0201#16, 0x01#8), (0x0202#16, 0xA9#8), (0x0203#16, 0x02#8)]
        with pc := 0x0200#16 }) (fun t => (t.a, t.pc, t.cyc)) = some (0x02#8, 0x0204#16, -1) := by decide
/-- P6: the pushed return address is executed. -/
theorem test_P6_pushed_bytes_run :
    see (execute 8 { poke State.reset [(0x01A7#16, 0x20#8), (0x01A8#16, 0x50#8), (0x01A9#16, 0x01#8), (0x0150#16, 0xA9#8),
        (0x0151#16, 0xFF#8)] with pc := 0x01A7#16, sp := 0x52#8 }) (fun t => (t.a, t.pc, t.sp, t.cyc)) =
      some (0x01#8, 0x0152#16, 0x50#8, 0) := by decide
/-- M2, M4, M7. -/
theorem test_M2_fetch_word_wraps :
    (fetchWord { poke State.reset [(0xFFFF#16, 0x34#8), (0x0000#16, 0x12#8)] with pc := 0xFFFF#16, cyc := 3 }).1 = 0x1234#16 := by
  decide
theorem test_M4_zero_page_pointer :
    let s := poke State.reset [(0x00FF#16, 0xCD#8), (0x0000#16, 0xAB#8), (0x0100#16, 0xEF#8)]
    (readWordZP Config.hardware 0xFF#8 s).1 = 0xABCD#16 ∧
      (readWordZP { Config.hardware with zpPtrWrap := false } 0xFF#8 s).1 = 0xEFCD#16 := by decide
theorem test_M7_page_cross :
    pageCross 0x00FF#16 0x0100#16 = true ∧ pageCross 0x0010#16 0x0011#16 = false ∧ pageCross 0xFFFF#16 0x0000#16 = true ∧
      pageCross 0x1200#16 0x12FF#16 = false := by decide
/-- R19, R31: writing zero unlists a byte, so equal memories are equal data. -/
theorem test_memory_canonical :
    (poke State.reset [(0x0002#16, 0x05#8), (0x0001#16, 0x07#8), (0x0002#16, 0x00#8)]).mem = [(1, 0x07#8)] := by decide
/-- J9 at the memory port: three reads, then the two writes; reset raises `mem_init` (R24, R150). -/
theorem test_J9_port_transactions :
    stepTransactions { ready 0x01F0#16 [(0x01F0#16, 0x20#8), (0x01F1#16, 0x00#8), (0x01F2#16, 0x03#8)] with sp := 0xF3#8 } =
      [.read 0x01F0#16 0x20#8, .read 0x01F1#16 0x00#8, .read 0x01F2#16 0x03#8, .write 0x01F2#16 0x01#8,
        .write 0x01F1#16 0xF2#8] := by decide
theorem test_reset_raises_mem_init :
    (hostTransactions .reset State.reset).map (fun tr => tr.signals.memInit) = [true] := by decide
/-- A word placed at the top of memory runs as the first instruction after reset. -/
theorem test_placed_word_runs :
    see (step (State.reset.withFetchWord 16 0x80A9)) (fun t => (t.a, t.pc)) = some (0x80#8, 0xFFFE#16) := by decide

/-! ### Witnesses: states and operands that meet the hypotheses of each statement -/

/-- A running core about to load 0x80. -/
def loading : State := ready 0x0200#16 [(0x0200#16, 0xA9#8), (0x0201#16, 0x80#8)]
/-- A running core about to call, the target being the slot of the low pushed byte. -/
def calling : State :=
  { ready 0x01A7#16 [(0x01A7#16, 0x20#8), (0x01A8#16, 0x50#8), (0x01A9#16, 0x01#8)] with sp := 0x52#8 }
/-- A running core about to fault. -/
def failing : State := ready 0x0200#16 [(0x0200#16, 0xEA#8)]
/-- A faulted core. -/
def faulted : State := { State.reset with fault := some { op := 0xEA#8, addr := 0x0200#16 } }

theorem witness_DecodeOfEncodeIsIdentity : (Instr.jsr 0x1234#16).wellFormed = true := by decide
theorem witness_AcceptedBytesAreTheEncoding :
    decodeBytes [0xAD#8, 0x34#8, 0x12#8, 0xFF#8] = .ok (.ldaAbs 0x1234#16, [0xFF#8]) := rfl
theorem witness_FetchReadsEncodedInstruction :
    ∀ k : Nat, k < (encode (.ldaAbs 0x1234#16)).length →
      (encode (.ldaAbs 0x1234#16))[k]? =
        some ((ready 0xFFFE#16 [(0xFFFE#16, 0xAD#8), (0xFFFF#16, 0x34#8), (0x0000#16, 0x12#8)]).mem.readByte
          (0xFFFE#16 + BitVec.ofNat 16 k)) := by decide
theorem witness_StepRunsDecodedInstruction :
    loading.fault = none ∧ 0 < loading.cyc ∧
      decode (loading.mem.readByte loading.pc) (loading.mem.readByte (loading.pc + 1#16))
        (loading.mem.readByte (loading.pc + 2#16)) = .instr (.ldaImm 0x80#8) := by decide
theorem witness_PlacedInstructionRunsNext : decodeTableWord 24 0x123420 = some (.jsr 0x1234#16) := by decide
theorem witness_IdleCoreHoldsItsState : State.reset.fault = none ∧ State.reset.cyc ≤ 0 := by decide
theorem witness_RunningStepLowersCounter : failing.fault = none ∧ 0 < failing.cyc := by decide
theorem witness_FetchByteAloneAdvancesPc_top : ({ State.reset with pc := 0xFFFF#16 } : State).pc = 0xFFFF#16 := rfl
theorem witness_FetchByteAloneAdvancesPc_load :
    isLoad (.ldaIndy 0xFF#8) = true ∧ ∃ t, exec (.ldaIndy 0xFF#8) loading = .next t := ⟨rfl, _, rfl⟩
theorem witness_WordReadsAreLittleEndian :
    Config.hardware.zpPtrWrap = true ∧ ({ Config.hardware with zpPtrWrap := false } : Config).zpPtrWrap = false ∧
      (0xFE#8 : Byte) ≠ 0xFF#8 ∧ (0x00#8 : Byte) ≠ 0xFF#8 := by decide
theorem witness_WrittenWordReadsBack : (0x0001#16 : Addr) ≠ 0xFFFF#16 ∧ (0x0001#16 : Addr) ≠ 0xFFFF#16 + 1#16 := by decide
theorem witness_ReadAnswersLatestWrite : ∃ t, hostAct .reset faulted = some (.next t) := ⟨_, rfl⟩
theorem witness_PushWordStaysInStackPage :
    (0x0100#16 : Addr) ≠ stackAddr (0xFD#8 - 1#8) ∧ (0x0100#16 : Addr) ≠ stackAddr (0xFD#8 - 2#8) := by decide
theorem witness_WordWriteMatchesPushOffWrap :
    ({ State.reset with sp := 0x00#8 } : State).sp ≠ 0x01#8 ∧ ({ State.reset with sp := 0x02#8 } : State).sp ≠ 0x01#8 ∧
      ({ State.reset with sp := 0x01#8 } : State).sp = 0x01#8 := by decide
theorem witness_SetZNIsTheFlagUpdate :
    (1 ≤ (0x01#8).toNat ∧ (0x01#8).toNat ≤ 0x7F) ∧ (1 ≤ (0x7F#8).toNat ∧ (0x7F#8).toNat ≤ 0x7F) ∧ 0x80 ≤ (0x80#8).toNat ∧
      0x80 ≤ (0xFF#8).toNat ∧ isLoad (.ldaImm 0x00#8) = true := by decide
theorem witness_SetZNIsTheFlagUpdate_load : ∃ t, exec (.ldaImm 0x00#8) State.reset = .next t := ⟨_, rfl⟩
theorem witness_IndirectLoadsUnderEitherWrap :
    (0xFE#8 : Byte) + State.reset.x ≠ 0xFF#8 ∧ (0x00#8 : Byte) ≠ 0xFF#8 ∧
      (0xFE#8 : Byte) + ({ State.reset with x := 0x01#8 } : State).x = 0xFF#8 := by decide
theorem witness_JsrResult :
    ({ State.reset with sp := 0x00#8 } : State).sp ≠ 0x01#8 ∧ (0x0100#16 : Addr) ≠ stackAddr (0xFD#8 - 1#8) ∧
      (0x0100#16 : Addr) ≠ stackAddr (0xFD#8 - 2#8) := by decide
theorem witness_BusCyclesAccountForInstruction : ∃ t, exec (.jsr 0x0200#16) State.reset = .next t := ⟨_, rfl⟩
theorem witness_LoadFrame : isLoad (.ldaZpx 0xF0#8) = true ∧ ∃ t, exec (.ldaZpx 0xF0#8) calling = .next t := ⟨rfl, _, rfl⟩
theorem witness_JsrFrame :
    (∃ t, exec (.jsr 0xFFFF#16) calling = .next t) ∧ (0x0100#16 : Addr) ≠ stackAddr (calling.sp - 1#8) ∧
      (0x0100#16 : Addr) ≠ stackAddr (calling.sp - 2#8) := ⟨⟨_, rfl⟩, by decide, by decide⟩
theorem witness_FlagsChangeOnlyAsNamed :
    (∃ t, step loading = .next t) ∧ (∃ t, exec (.jsr 0x0000#16) loading = .next t) ∧
      ∃ t, step failing = .next t ∧ t.fault ≠ none := by
  refine ⟨⟨_, rfl⟩, ⟨_, rfl⟩, _, rfl, by decide⟩
theorem witness_IndexRegistersNeverChange : ∃ t, step calling = .next t := ⟨_, rfl⟩
theorem witness_StepsStoreOnlyInStackPage :
    (∃ t, step calling = .next t) ∧ hiByte 0x0200#16 ≠ 0x01#8 ∧ hiByte 0x00FF#16 ≠ 0x01#8 := ⟨⟨_, rfl⟩, by decide, by decide⟩
theorem witness_AccumulatorAndFlagsAreNeverRead :
    (∃ t, step calling = .next t) ∧ ∃ r, step faulted = .fault r := ⟨⟨_, rfl⟩, _, rfl⟩
theorem witness_ModesReadOnlyTheirIndex_x :
    (∀ d8, Instr.ldaAbsy 0xFFFF#16 ≠ .ldaZpx d8) ∧ (∀ a16, Instr.ldaAbsy 0xFFFF#16 ≠ .ldaAbsx a16) ∧
      (∀ d8, Instr.ldaAbsy 0xFFFF#16 ≠ .ldaIndx d8) ∧ ∃ t, exec (.ldaAbsy 0xFFFF#16) loading = .next t := by
  refine ⟨fun _ h => (nomatch h), fun _ h => (nomatch h), fun _ h => (nomatch h), _, rfl⟩
theorem witness_ModesReadOnlyTheirIndex_y :
    (∀ a16, Instr.ldaIndx 0xFF#8 ≠ .ldaAbsy a16) ∧ (∀ d8, Instr.ldaIndx 0xFF#8 ≠ .ldaIndy d8) ∧
      ∃ t, exec (.ldaIndx 0xFF#8) loading = .next t := by
  refine ⟨fun _ h => (nomatch h), fun _ h => (nomatch h), _, rfl⟩
theorem witness_CallTargetReadBeforePush :
    calling.fault = none ∧ 0 < calling.cyc ∧ calling.mem.readByte calling.pc = 0x20#8 ∧
      calling.mem.readByte (calling.pc + 1#16) = 0x50#8 ∧ calling.mem.readByte (calling.pc + 2#16) = 0x01#8 ∧
      ofBytes 0x01#8 0x50#8 = stackAddr (calling.sp - 2#8) := by decide
theorem witness_StackPointerAfterCalls : (List.replicate 128 (0x0300#16 : Addr)).length = 128 := List.length_replicate
theorem witness_UnimplementedOpcodeLatchesFault :
    failing.fault = none ∧ 0 < failing.cyc ∧ failing.mem.readByte failing.pc ∉ implementedOpcodes := by decide
theorem witness_OnlyUnimplementedOpcodesFault : failing.fault = none ∧ ∃ t, step failing = .next t ∧ t.fault ≠ none := by
  refine ⟨rfl, _, rfl, by decide⟩
theorem witness_FaultIsStickyUntilReset :
    faulted.fault = some { op := 0xEA#8, addr := 0x0200#16 } ∧ HostAction.writeX 0x01#8 ≠ .reset ∧
      ∃ t, hostAct (.writeX 0x01#8) faulted = some (.next t) := ⟨rfl, by decide, _, rfl⟩
theorem witness_ResetIsIdempotentAndTotal : runState faulted ≠ .running ∧ runState State.reset ≠ .running := by decide
theorem witness_HostActsOnlyWhenNotRunning :
    runState loading = .running ∧ (∃ t, hostAct (.writeMem 0xFFFF#16 0x00#8) State.reset = some (.next t)) ∧
      (∃ t, hostAct (.writeX 0x01#8) State.reset = some (.next t)) ∧
      (∃ t, hostAct (.writeY 0x01#8) State.reset = some (.next t)) ∧
      (∃ t, hostAct (.writeA 0x01#8) State.reset = some (.next t)) ∧
      (∃ t, hostAct (.writeSp 0x01#8) State.reset = some (.next t)) ∧
      (∃ t, hostAct (.writePc 0xFFFF#16) State.reset = some (.next t)) ∧
      (∃ t, hostAct (.writeFlag .v true) State.reset = some (.next t)) ∧
      HostAction.writeX 0x01#8 ≠ .reset ∧ ∀ b : Int, HostAction.writeX 0x01#8 ≠ .execute b :=
  ⟨by decide, ⟨_, rfl⟩, ⟨_, rfl⟩, ⟨_, rfl⟩, ⟨_, rfl⟩, ⟨_, rfl⟩, ⟨_, rfl⟩, ⟨_, rfl⟩, by decide, fun _ h => (nomatch h)⟩
theorem witness_NoBudgetRunsNothing : State.reset.fault = none ∧ (0 : Int) ≤ 0 ∧ (-3 : Int) ≤ 0 := by decide
theorem witness_ExecuteOneRunsOneInstruction : State.reset.fault = none := rfl
theorem witness_ExecuteEndsWithinBounds : State.reset.fault = none ∧ (1 : Int) ≤ 1 := by decide
theorem witness_ExecuteRefinesIteratedStep : loading.fault = none ∧ ∃ t, execute 3 loading = .next t := ⟨rfl, _, rfl⟩
theorem witness_StepKeepsInv : calling.Inv ∧ ∃ t, step calling = .next t :=
  ⟨⟨by decide, by decide, by decide, fun _ h => (nomatch h)⟩, _, rfl⟩

end Sys2Proof.Tests
end

section
/-! What an instruction and a step can do, said once: each load leaves `afterLoad`, the call leaves the state of
`callTo_eq`, and a step that answers a next state is idle, a load, a call or the latching of a fault. -/

namespace Sys2Proof.Machine

section
variable (s : State)

/-! ### The state a load leaves -/

@[simp] theorem afterLoad_flags (v : Byte) (len : Addr) (cost : Int) :
    (afterLoad s v len cost).flags = { s.flags with z := decide (v = 0x00#8), n := v.getLsbD 7 } := rfl
@[simp] theorem afterLoad_fault (v : Byte) (len : Addr) (cost : Int) : (afterLoad s v len cost).fault = s.fault := rfl

/-- The end of every load, once `len` bytes are fetched and `cost` cycles charged. -/
theorem loadA_eq_afterLoad (v : Byte) (len : Addr) (cost : Int) :
    loadA v { s with pc := s.pc + len, cyc := s.cyc - cost } = afterLoad s v len cost := by
  ext <;> simp [afterLoad, zeroFlag, negativeFlag, beq_eq_decide]

/-- The end of a load from memory: the read is one cycle more. -/
theorem loadFrom_eq_afterLoad (ea len : Addr) (cost : Int) :
    loadFrom (ea, { s with pc := s.pc + len, cyc := s.cyc - cost }) =
      afterLoad s (s.mem.readByte ea) len (cost + 1) := by
  rw [← loadA_eq_afterLoad, ← Int.sub_sub]
  rfl

/-- Cycles charged after `len` bytes are fetched add to the cost. -/
theorem charge_fetched (len : Addr) (cost n : Int) :
    charge n { s with pc := s.pc + len, cyc := s.cyc - cost } =
      { s with pc := s.pc + len, cyc := s.cyc - (cost + n) } := by
  rw [← Int.sub_sub]
  rfl

/-- The end of an indexed load: a page crossing is one cycle more. -/
theorem loadFrom_indexed_eq_afterLoad (base len : Addr) (index : Byte) (cost : Int) :
    loadFrom (indexed base index { s with pc := s.pc + len, cyc := s.cyc - cost }) =
      afterLoad s (s.mem.readByte (base + zext16 index)) len
        (if pageCross base (base + zext16 index) then cost + 2 else cost + 1) := by
  rw [indexed_eq, charge_fetched, loadFrom_eq_afterLoad]
  split <;> simp [Int.add_assoc]

/-! ### One equation per instruction -/

theorem exec_ldaImm_eq (d8 : Byte) : exec (.ldaImm d8) s = .next (afterLoad s d8 2#16 2) := by
  show Host.Outcome.next (loadA d8 (consumeByte (consumeByte s))) = _
  rw [consumeByte_consumeByte, loadA_eq_afterLoad]

theorem exec_ldaZp_eq (d8 : Byte) :
    exec (.ldaZp d8) s = .next (afterLoad s (s.mem.readByte (zeroPage d8)) 2#16 3) := by
  show Host.Outcome.next (loadFrom (zeroPage d8, consumeByte (consumeByte s))) = _
  rw [consumeByte_consumeByte, loadFrom_eq_afterLoad]
  rfl

theorem exec_ldaZpx_eq (d8 : Byte) :
    exec (.ldaZpx d8) s = .next (afterLoad s (s.mem.readByte (zeroPage (d8 + s.x))) 2#16 4) := by
  show Host.Outcome.next (loadFrom (zeroPage (d8 + s.x), charge 1 (consumeByte (consumeByte s)))) = _
  rw [consumeByte_consumeByte, charge_fetched, loadFrom_eq_afterLoad]
  rfl

theorem exec_ldaAbs_eq (a16 : Addr) :
    exec (.ldaAbs a16) s = .next (afterLoad s (s.mem.readByte a16) 3#16 4) := by
  show Host.Outcome.next (loadFrom (a16, consumeWord (consumeByte s))) = _
  rw [consumeWord_consumeByte, loadFrom_eq_afterLoad]
  rfl

theorem exec_ldaAbsx_eq (a16 : Addr) :
    exec (.ldaAbsx a16) s = .next (afterLoad s (s.mem.readByte (a16 + zext16 s.x)) 3#16
      (if pageCross a16 (a16 + zext16 s.x) then 5 else 4)) := by
  show Host.Outcome.next (loadFrom (indexed a16 s.x (consumeWord (consumeByte s)))) = _
  rw [consumeWord_consumeByte, loadFrom_indexed_eq_afterLoad]
  rfl

theorem exec_ldaAbsy_eq (a16 : Addr) :
    exec (.ldaAbsy a16) s = .next (afterLoad s (s.mem.readByte (a16 + zext16 s.y)) 3#16
      (if pageCross a16 (a16 + zext16 s.y) then 5 else 4)) := by
  show Host.Outcome.next (loadFrom (indexed a16 s.y (consumeWord (consumeByte s)))) = _
  rw [consumeWord_consumeByte, loadFrom_indexed_eq_afterLoad]
  rfl

theorem ldaIndx_eq (cfg : Config) (d8 : Byte) :
    ldaIndx cfg d8 s = afterLoad s (s.mem.readByte (readWordZP cfg (d8 + s.x) s).1) 2#16 6 := by
  show loadFrom (readWordZP cfg (d8 + s.x) (charge 1 (consumeByte (consumeByte s)))) = _
  rw [consumeByte_consumeByte, charge_fetched, readWordZP_eq, charge_fetched, loadFrom_eq_afterLoad, readWordZP_eq]
  rfl

theorem ldaIndy_eq (cfg : Config) (d8 : Byte) :
    ldaIndy cfg d8 s =
      afterLoad s (s.mem.readByte ((readWordZP cfg d8 s).1 + zext16 s.y)) 2#16
        (if pageCross (readWordZP cfg d8 s).1 ((readWordZP cfg d8 s).1 + zext16 s.y) then 6 else 5) := by
  show loadFrom (indexed (readWordZP cfg d8 (consumeByte (consumeByte s))).1 s.y
    (readWordZP cfg d8 (consumeByte (consumeByte s))).2) = _
  simp only [consumeByte_consumeByte, readWordZP_eq, charge_fetched, loadFrom_indexed_eq_afterLoad]
  rfl

theorem exec_jsr_eq (target : Addr) : exec (.jsr target) s = .next (callTo target (consumeWord (consumeByte s))) := rfl

@[simp] theorem callTo_flags (target : Addr) : (callTo target s).flags = s.flags := rfl

/-- Every instruction that is not the call leaves the state of `afterLoad`, past its own bytes and lower by its cost. -/
theorem exec_eq_afterLoad {i : Instr} (load : isLoad i = true) :
    ∃ v, exec i s = .next (afterLoad s v (BitVec.ofNat 16 i.length) (cycleCost i s)) := by
  cases i with
  | ldaImm d8 => exact ⟨_, exec_ldaImm_eq s d8⟩
  | ldaZp d8 => exact ⟨_, exec_ldaZp_eq s d8⟩
  | ldaZpx d8 => exact ⟨_, exec_ldaZpx_eq s d8⟩
  | ldaAbs a16 => exact ⟨_, exec_ldaAbs_eq s a16⟩
  | ldaAbsx a16 => exact ⟨_, exec_ldaAbsx_eq s a16⟩
  | ldaAbsy a16 => exact ⟨_, exec_ldaAbsy_eq s a16⟩
  | ldaIndx d8 => exact ⟨_, congrArg Host.Outcome.next (ldaIndx_eq s Config.hardware d8)⟩
  | ldaIndy d8 => exact ⟨_, congrArg Host.Outcome.next (ldaIndy_eq s Config.hardware d8)⟩
  | jsr target => cases load

/-! ### What a step that answers a next state has done -/

variable {s}

/-- The next state of a step, by what the step was: idle, a load, a call or the latching of a fault. -/
theorem step_next_cases {t : State} (stepped : step s = .next t) :
    (s.fault = none ∧ s.cyc ≤ 0 ∧ t = s) ∨
    (s.fault = none ∧ 0 < s.cyc ∧ ∃ i v, isLoad i = true ∧ fetchInstr s = .instr i ∧
      t = afterLoad s v (BitVec.ofNat 16 i.length) (cycleCost i s)) ∨
    (s.fault = none ∧ 0 < s.cyc ∧ ∃ target, fetchInstr s = .instr (.jsr target) ∧
      t = callTo target (consumeWord (consumeByte s))) ∨
    (s.fault = none ∧ 0 < s.cyc ∧ ∃ op, fetchInstr s = .unimplemented op ∧
      t = raiseUnimplemented op s.pc (consumeByte s)) := by
  obtain ⟨r, -, answer⟩ | ⟨unlatched, spent, answer⟩ | ⟨unlatched, budget, i, fetched, answer⟩ |
    ⟨unlatched, budget, op, fetched, answer⟩ := step_cases s
  all_goals rw [answer] at stepped
  · cases stepped
  · cases stepped
    exact .inl ⟨unlatched, spent, rfl⟩
  · by_cases load : isLoad i = true
    · obtain ⟨v, loaded⟩ := exec_eq_afterLoad s load
      cases loaded.symm.trans stepped
      exact .inr (.inl ⟨unlatched, budget, i, v, load, fetched, rfl⟩)
    · cases i with
      | jsr target =>
        cases (exec_jsr_eq s target).symm.trans stepped
        exact .inr (.inr (.inl ⟨unlatched, budget, target, fetched, rfl⟩))
      | _ => exact absurd rfl load
  · cases stepped
    exact .inr (.inr (.inr ⟨unlatched, budget, op, fetched, rfl⟩))

/-! ### The flags -/

/-- A step keeps the flags whole, or sets `Z` and `N` and latches no fault (10_state R14). -/
theorem step_flags_cases {t : State} (stepped : step s = .next t) :
    t.flags = s.flags ∨ (t.fault = none ∧ ∃ z n, t.flags = { s.flags with z := z, n := n }) := by
  obtain ⟨-, -, rfl⟩ | ⟨unlatched, -, i, v, -, -, rfl⟩ | ⟨-, -, target, -, rfl⟩ | ⟨-, -, op, -, rfl⟩ :=
    step_next_cases stepped
  · exact .inl rfl
  · exact .inr ⟨(afterLoad_fault s v _ _).trans unlatched, _, _, afterLoad_flags s v _ _⟩
  · exact .inl (callTo_flags _ target)
  · exact .inl (raiseUnimplemented_flags _ op _)

end

/-- Settles O38: a load sets `Z` and `N` and latches no fault; an idle step, a call and a fault keep the flags whole. -/
theorem flagsChangeOnlyAsNamed : Obligations.FlagsChangeOnlyAsNamed := by
  refine ⟨fun s t stepped => ?_, fun target s t called => ?_, fun s t stepped latched => ?_⟩
  · obtain kept | ⟨-, z, n, set⟩ := step_flags_cases stepped
    · simp [kept]
    · simp [set]
  · cases (exec_jsr_eq s target).symm.trans called
    exact callTo_flags _ target
  · obtain kept | ⟨unlatched, -⟩ := step_flags_cases stepped
    · exact kept
    · exact absurd unlatched latched

end Sys2Proof.Machine
end

section
/-! What memory and the host's moves answer, said once: after a sequence of writes the last one to an address decides
what it reads as, and the host moves a core exactly when it is not running. -/

namespace Sys2Proof.Machine

/-- The sequence is split at its last write: it decides its own address and leaves every other to the writes before it. -/
theorem Memory.readByte_foldl_writeByte (m : Memory) (writes : List (Addr × Byte)) (a : Addr) :
    (writes.foldl (fun m w => m.writeByte w.1 w.2) m).readByte a =
      (writes.reverse.find? (fun w => w.1 == a)).elim (m.readByte a) Prod.snd := by
  induction writes using List.reverseRecOn with
  | nil => rfl
  | append_singleton earlier last ih =>
    rw [List.foldl_concat, List.reverse_concat]
    by_cases hit : last.1 = a
    · subst hit
      simp
    · rw [Memory.readByte_writeByte_ne (Ne.symm hit), ih, List.find?_cons_of_neg (by simpa using hit)]

/-- The host's move is answered exactly when the core is not running, and with the action's effect (10_state R23). -/
theorem hostAct_eq_some_iff {act : HostAction} {s : State} {answer : Host.Outcome State Fault Refusal} :
    hostAct act s = some answer ↔ runState s ≠ .running ∧ answer = hostEffect act s := by
  unfold hostAct
  cases runState s <;> simp [eq_comm]

/-- Settles O16: the last write to the address decides, over a reset memory that reads 0x00; the host's reset leaves that
memory. -/
theorem readAnswersLatestWrite : Obligations.ReadAnswersLatestWrite := by
  refine ⟨fun writes a => ?_, fun s t a moved => ?_⟩
  · rw [Memory.readByte_foldl_writeByte]
    cases writes.reverse.find? (fun w => w.1 == a) <;> rfl
  · obtain ⟨-, answered⟩ := hostAct_eq_some_iff.mp moved
    cases answered
    exact Memory.readByte_initialize a

end Sys2Proof.Machine
end

section
/-! What the assembled operands are worth as numbers (30_encoding R52). -/

namespace Sys2Proof

/-- `{hi, lo}` is the sum of its bytes' places: the low byte lies below the 8-bit shift, so the `or` of the two adds. -/
theorem ofBytes_toNat (hi lo : Byte) : (ofBytes hi lo).toNat = 256 * hi.toNat + lo.toNat := by
  have lo_lt : lo.toNat < 2 ^ 8 := lo.isLt
  calc (ofBytes hi lo).toNat
      _ = hi.toNat <<< 8 ||| lo.toNat := BitVec.toNat_append hi lo
      _ = hi.toNat <<< 8 + lo.toNat := (Nat.shiftLeft_add_eq_or_of_lt lo_lt hi.toNat).symm
      _ = 256 * hi.toNat + lo.toNat := by rw [Nat.shiftLeft_eq, Nat.mul_comm]

theorem zeroPage_toNat (d : Byte) : (zeroPage d).toNat = d.toNat := by
  simp [zeroPage, ofBytes_toNat]

end Sys2Proof

namespace Sys2Proof.Machine

/-- Settles O6: the two operand widths by their values, the assembly by the decoder's table, and the immediate by the
state its load leaves. -/
theorem operandAssembly : Obligations.OperandAssembly := by
  refine ⟨ofBytes_toNat, zeroPage_toNat, fun b1 b2 => ?assembled, fun d8 s => ?loaded⟩
  case assembled => exact ⟨rfl, rfl, rfl, rfl, rfl, rfl, rfl, rfl, rfl⟩
  case loaded => exact ⟨afterLoad s d8 2#16 2, exec_ldaImm_eq s d8, rfl⟩

end Sys2Proof.Machine
end

section
/-! The primitives, one by one: which of them moves `pc`, what a pop undoes of a push, and what `SetZN` decides of a byte
(40_execution_loop_and_primitives R70 to R78, R87). -/

namespace Sys2Proof.Machine

section
variable (s : State)

/-! ### The word primitives keep `pc` -/

@[simp] theorem readWordAt_snd_pc (a : Addr) : (readWordAt a s).2.pc = s.pc := by
  simp [readWordAt_eq]

@[simp] theorem readWordZP_snd_pc (cfg : Config) (p : Byte) : (readWordZP cfg p s).2.pc = s.pc := by
  simp [readWordZP_eq]

@[simp] theorem pushWord_pc (w : Addr) : (pushWord w s).pc = s.pc := by
  rw [pushWord_eq]

@[simp] theorem writeWordAt_pc (a v : Addr) : (writeWordAt a v s).pc = s.pc := rfl

/-! ### Popping a byte -/

@[simp] theorem popByte_fst : (popByte s).1 = s.mem.readByte (stackAddr s.sp) := rfl
@[simp] theorem popByte_snd_sp : (popByte s).2.sp = s.sp + 1#8 := rfl
@[simp] theorem popByte_snd_pc : (popByte s).2.pc = s.pc := rfl

/-- A pop reads the slot the push before it has just written. -/
theorem popByte_pushByte_fst (v : Byte) : (popByte (pushByte v s)).1 = v := by
  rw [popByte_fst, pushByte_mem, pushByte_sp, Memory.readByte_writeByte_self]

/-- The two moves of the stack pointer cancel, modulo 256. -/
theorem popByte_pushByte_snd_sp (v : Byte) : (popByte (pushByte v s)).2.sp = s.sp := by
  rw [popByte_snd_sp, pushByte_sp, BitVec.sub_add_cancel]

/-! ### What `SetZN` decides of a byte, by the byte's value -/

theorem zeroFlag_eq_decide (v : Byte) : zeroFlag v = decide (v.toNat = 0) := by
  rw [zeroFlag, beq_eq_decide, decide_eq_decide]
  exact BitVec.toNat_inj.symm

/-- Bit 7 of a byte is its top bit, which is set in the upper half of the range. -/
theorem negativeFlag_eq_decide (v : Byte) : negativeFlag v = decide (0x80 ≤ v.toNat) :=
  (BitVec.msb_eq_getLsbD_last v).symm.trans (BitVec.msb_eq_decide v)

theorem setZN_z (v : Byte) : (setZN v s).flags.z = decide (v.toNat = 0) := zeroFlag_eq_decide v

theorem setZN_n (v : Byte) : (setZN v s).flags.n = decide (0x80 ≤ v.toNat) := negativeFlag_eq_decide v

/-! ### The state after a load that has run -/

@[simp] theorem afterLoad_a (v : Byte) (len : Addr) (cost : Int) : (afterLoad s v len cost).a = v := rfl
@[simp] theorem afterLoad_pc (v : Byte) (len : Addr) (cost : Int) : (afterLoad s v len cost).pc = s.pc + len := rfl

/-- The flags after a load are those of `SetZN` of the loaded byte (R87). -/
theorem afterLoad_flags_eq_setZN (v : Byte) (len : Addr) (cost : Int) :
    (afterLoad s v len cost).flags = (setZN v s).flags := by
  simp [zeroFlag, negativeFlag, beq_eq_decide]

variable {s}

/-- A load that has run left the state of `afterLoad`. -/
theorem eq_afterLoad_of_exec {i : Instr} {t : State} (load : isLoad i = true) (ran : exec i s = .next t) :
    ∃ v, t = afterLoad s v (BitVec.ofNat 16 i.length) (cycleCost i s) := by
  obtain ⟨v, loaded⟩ := exec_eq_afterLoad s load
  exact ⟨v, Host.Outcome.next.inj (ran.symm.trans loaded)⟩

theorem encode_length (i : Instr) : (encode i).length = i.length := by
  cases i <;> rfl

end

/-! ### The statements -/

/-- Settles O12: `fetchByte` is `consumeByte`, each other primitive has its `pc` lemma, and a load leaves `afterLoad` past
as many bytes as it is encoded in. -/
theorem fetchByteAloneAdvancesPc : Obligations.FetchByteAloneAdvancesPc := by
  refine ⟨fun s => rfl, fun s top => ?wraps, fun s a v cfg b => ?others, fun i s t load ran => ?loaded⟩
  case wraps => simp [top]
  case others => simp
  case loaded =>
    obtain ⟨v, rfl⟩ := eq_afterLoad_of_exec load ran
    rw [afterLoad_pc, encode_length]

/-- Settles O18: the pop reads the slot the push wrote and takes back its move of the stack pointer. -/
theorem popByteInvertsPushByte : Obligations.PopByteInvertsPushByte :=
  ⟨fun _ => rfl, fun v s => ⟨popByte_pushByte_fst s v, popByte_pushByte_snd_sp s v⟩⟩

/-- Settles O21: `Z` and `N` are decided by two ranges of the byte's value that do not meet, and a load leaves `afterLoad`,
whose flags are those of `SetZN`. -/
theorem setZNIsTheFlagUpdate : Obligations.SetZNIsTheFlagUpdate := by
  refine ⟨fun v s => ⟨?whole, ?never_both, ?zero, ?positive, ?negative⟩, fun i s t load ran => ?loaded⟩
  case whole => rw [setZN, zeroFlag, negativeFlag, beq_eq_decide]
  case loaded =>
    obtain ⟨v, rfl⟩ := eq_afterLoad_of_exec load ran
    rw [afterLoad_a, afterLoad_flags_eq_setZN]
  all_goals simp only [setZN_z, setZN_n, decide_eq_true_eq, decide_eq_false_iff_not]
  case never_both => omega
  case zero =>
    rintro rfl
    decide
  case positive => omega
  case negative => omega

/-- Settles O13: the byte read is the one at the address, and `charge` moves `cyc` only. -/
theorem readByteAtKeepsPc : Obligations.ReadByteAtKeepsPc :=
  fun a s => ⟨rfl, by rw [readByteAt_snd, charge_pc]⟩

end Sys2Proof.Machine
end

section
/-! The loads from an operand that is no pointer: the immediate, the zero-page address and the absolute address, alone or
indexed by `X` or `Y` (41_load R100, R101, R103 to R105). -/

namespace Sys2Proof.Machine

/-! ### The page crossing of an assembled base -/

/-- The base `{hh, ll}` is left for another page exactly when the effective address's high byte is not `hh` (R79). -/
theorem pageCross_ofBytes_iff (hh ll : Byte) (ea : Addr) : pageCross (ofBytes hh ll) ea = true ↔ hiByte ea ≠ hh := by
  rw [pageCross, hiByte_ofBytes, bne_iff_ne]

/-- The bracketed cycle of the base `{hh, ll}` comes before the read of the datum, and only on a page crossing. -/
theorem busIndexed_ofBytes (hh ll index : Byte) :
    busIndexed (ofBytes hh ll) index =
      if hiByte (ofBytes hh ll + zext16 index) ≠ hh
        then [.internal, .read (ofBytes hh ll + zext16 index)]
        else [.read (ofBytes hh ll + zext16 index)] := by
  simp only [busIndexed, pageCross_ofBytes_iff]
  split
  case isTrue crossed => rfl
  case isFalse inPage => rfl

/-! ### The statements -/

/-- Settles O26: the cost and the accesses of the load from a base plus `X`, both split on the page crossing of `{hh, ll}`. -/
theorem ldaAbsoluteXResult : Obligations.LdaAbsoluteXResult := by
  intro hh ll s ea
  refine ⟨?result, ?encoding, ?accesses⟩
  case result => simp only [exec_ldaAbsx_eq, pageCross_ofBytes_iff, ea]
  case encoding => rw [encode, loByte_ofBytes, hiByte_ofBytes]
  case accesses => rw [busCycles, busIndexed_ofBytes, busFetch3]

/-- Settles O27: the same split for the load from a base plus `Y`. -/
theorem ldaAbsoluteYResult : Obligations.LdaAbsoluteYResult := by
  intro hh ll s ea
  refine ⟨?result, ?encoding, ?accesses⟩
  case result => simp only [exec_ldaAbsy_eq, pageCross_ofBytes_iff, ea]
  case encoding => rw [encode, loByte_ofBytes, hiByte_ofBytes]
  case accesses => rw [busCycles, busIndexed_ofBytes, busFetch3]

/-- Settles O22: the load of the operand byte itself leaves `afterLoad` and reads the two instruction bytes only. -/
theorem ldaImmediateResult : Obligations.LdaImmediateResult :=
  fun nn s => ⟨exec_ldaImm_eq s nn, rfl, rfl⟩

/-- Settles O23: the load from `{0x00, nn}`, which is the address `zeroPage nn`. -/
theorem ldaZeroPageResult : Obligations.LdaZeroPageResult :=
  fun nn s => ⟨exec_ldaZp_eq s nn, rfl, rfl⟩

/-- Settles O25: the load from `{hh, ll}`, which is encoded low byte first. -/
theorem ldaAbsoluteResult : Obligations.LdaAbsoluteResult := by
  intro hh ll s
  refine ⟨exec_ldaAbs_eq s (ofBytes hh ll), ?encoding, rfl⟩
  case encoding => rw [encode, loByte_ofBytes, hiByte_ofBytes]

end Sys2Proof.Machine
end

section
/-! The return address of a call: what fetching the call's three bytes makes of it, and where the push leaves its two bytes
(42_subroutine_call R121). -/

namespace Sys2Proof.Machine

section
variable (s : State)

/-- Three bytes fetched and one taken off again: the address of the call's last byte. -/
theorem returnAddress_fetched : returnAddress (consumeWord (consumeByte s)) = s.pc + 2#16 := by
  rw [consumeWord_consumeByte, returnAddress, pc_three_sub_one]

/-- The two slots of a pushed word are never one, wherever the stack pointer wraps. -/
theorem stackAddr_sub_one_ne_sub_two (p : Byte) : stackAddr (p - 1#8) ≠ stackAddr (p - 2#8) := by
  rw [Ne, stackAddr_inj]
  bv_omega

theorem pushWord_readByte_high (w : Addr) : (pushWord w s).mem.readByte (stackAddr (s.sp - 1#8)) = hiByte w := by
  rw [pushWord_eq, Memory.readByte_writeByte_ne (stackAddr_sub_one_ne_sub_two s.sp), Memory.readByte_writeByte_self]

theorem pushWord_readByte_low (w : Addr) : (pushWord w s).mem.readByte (stackAddr (s.sp - 2#8)) = loByte w := by
  rw [pushWord_eq, Memory.readByte_writeByte_self]

/-- The two slots of a push, put together, are the word pushed. -/
theorem ofBytes_pushWord_slots (w : Addr) :
    ofBytes ((pushWord w s).mem.readByte (stackAddr (s.sp - 1#8)))
      ((pushWord w s).mem.readByte (stackAddr (s.sp - 2#8))) = w := by
  rw [pushWord_readByte_high, pushWord_readByte_low, ofBytes_hi_lo]

/-- The jump that ends a call leaves the memory of the push. -/
theorem callTo_mem (target : Addr) : (callTo target s).mem = (pushWord (returnAddress s) (internal s)).mem := rfl

/-- The slots of a call that has run hold its return address. -/
theorem ofBytes_callTo_slots (target : Addr) :
    ofBytes ((callTo target s).mem.readByte (stackAddr (s.sp - 1#8)))
      ((callTo target s).mem.readByte (stackAddr (s.sp - 2#8))) = returnAddress s := by
  rw [callTo_mem]
  exact ofBytes_pushWord_slots (internal s) (returnAddress s)

end

/-- Settles O32: both forms of the return address are that of the fetched call, whose push leaves it in the two slots; the
target is the assembled operand. -/
theorem returnAddressIsLastByteOfCall : Obligations.ReturnAddressIsLastByteOfCall := by
  intro hh ll s
  refine ⟨returnAddress_fetched s, returnAddress_fetched s, _, exec_jsr_eq s (ofBytes hh ll), ?pushed, ?target⟩
  case pushed => exact (ofBytes_callTo_slots (consumeWord (consumeByte s)) _).trans (returnAddress_fetched s)
  case target => exact ofBytes_toNat hh ll

end Sys2Proof.Machine
end

section
/-! The host's reset: the same state from every core that is not running, and that state may itself be reset
(70_reset_and_hazards R151). -/

namespace Sys2Proof.Machine

theorem hostAct_reset {s : State} (stopped : runState s ≠ .running) :
    hostAct .reset s = some (.next State.reset) :=
  hostAct_eq_some_iff.mpr ⟨stopped, rfl⟩

/-- Reset leaves the core idle, so the host may act on it again. -/
theorem runState_reset_ne_running : runState State.reset ≠ .running := by decide

/-- Settles O49: every reset answers `State.reset`, which is idle and holds the initialized memory. -/
theorem resetIsIdempotentAndTotal : Obligations.ResetIsIdempotentAndTotal :=
  fun _ stopped => ⟨State.reset, hostAct_reset stopped, hostAct_reset runState_reset_ne_running,
    Memory.readByte_initialize, fun _ => hostAct_reset⟩

end Sys2Proof.Machine
end

section
/-! The opcode table, the encoder and the decoder against each other: an instruction is its handler and its operand bytes,
and what the machine's decoder answers is the instruction whose encoding comes first (30_encoding R50 to R54). -/

namespace Sys2Proof

/-! ### The opcode map and its inverse -/

/-- The opcode byte the table gives a handler (R53). -/
def Handler.opcode : Handler → Byte
  | .ldaImm => 0xA9#8
  | .ldaZp => 0xA5#8
  | .ldaZpx => 0xB5#8
  | .ldaAbs => 0xAD#8
  | .ldaAbsx => 0xBD#8
  | .ldaAbsy => 0xB9#8
  | .ldaIndx => 0xA1#8
  | .ldaIndy => 0xB1#8
  | .jsr => 0x20#8

@[simp] theorem decodeOpcode_opcode (h : Handler) : decodeOpcode h.opcode = some h := by
  cases h <;> rfl

theorem decodeOpcode_eq_some_iff {op : Byte} {h : Handler} : decodeOpcode op = some h ↔ op = h.opcode := by
  constructor
  · unfold decodeOpcode
    split <;> rintro ⟨⟩ <;> rfl
  · rintro rfl
    exact decodeOpcode_opcode h

theorem opcode_mem_implementedOpcodes (h : Handler) : h.opcode ∈ Machine.implementedOpcodes := by
  cases h <;> decide

/-- The bytes without a handler are those outside the table's list (R54). -/
theorem decodeOpcode_eq_none_iff {op : Byte} : decodeOpcode op = none ↔ op ∉ Machine.implementedOpcodes := by
  have listed_mapped : ∀ op ∈ Machine.implementedOpcodes, decodeOpcode op ≠ none := by decide
  refine ⟨fun unmapped listed => listed_mapped op listed unmapped, fun unlisted => ?_⟩
  cases mapped : decodeOpcode op with
  | none => rfl
  | some h =>
    rw [decodeOpcode_eq_some_iff.mp mapped] at unlisted
    exact absurd (opcode_mem_implementedOpcodes h) unlisted

/-! ### An instruction as a handler and its operand bytes -/

theorem exists_eq_assemble (i : Instr) : ∃ (h : Handler) (b1 b2 : Byte), i = h.assemble b1 b2 := by
  cases i with
  | ldaImm d8 => exact ⟨.ldaImm, d8, 0#8, rfl⟩
  | ldaZp d8 => exact ⟨.ldaZp, d8, 0#8, rfl⟩
  | ldaZpx d8 => exact ⟨.ldaZpx, d8, 0#8, rfl⟩
  | ldaAbs a16 => exact ⟨.ldaAbs, loByte a16, hiByte a16, by simp [Handler.assemble]⟩
  | ldaAbsx a16 => exact ⟨.ldaAbsx, loByte a16, hiByte a16, by simp [Handler.assemble]⟩
  | ldaAbsy a16 => exact ⟨.ldaAbsy, loByte a16, hiByte a16, by simp [Handler.assemble]⟩
  | ldaIndx d8 => exact ⟨.ldaIndx, d8, 0#8, rfl⟩
  | ldaIndy d8 => exact ⟨.ldaIndy, d8, 0#8, rfl⟩
  | jsr a16 => exact ⟨.jsr, loByte a16, hiByte a16, by simp [Handler.assemble]⟩

/-- An encoding is the opcode byte and as many of the two operand bytes as the format asks for (R51, R52). -/
theorem encode_assemble (h : Handler) (b1 b2 : Byte) :
    encode (h.assemble b1 b2) = h.opcode :: [b1, b2].take h.format.operandBytes := by
  cases h <;> simp [Handler.assemble, encode, Handler.opcode, Handler.format, Format.operandBytes]

theorem operandBytes_le_two (h : Handler) : h.format.operandBytes ≤ 2 := by
  cases h <;> decide

/-- Of the two bytes the assembly looks at, those within the format's length are the string's own. -/
theorem take_operands {rest : List Byte} {n : Nat} (short : n ≤ 2) (enough : n ≤ rest.length) :
    [rest.getD 0 0#8, rest.getD 1 0#8].take n = rest.take n := by
  match rest, n with
  | _, 0 => rfl
  | b1 :: _, 1 => rfl
  | b1 :: b2 :: _, 2 => rfl

/-! ### The decoder of byte strings -/

/-- Everything the decoder accepts: an implemented opcode byte with enough bytes after it (R50, R53). -/
theorem decodeBytes_cons_eq_ok_iff {op : Byte} {tail rest : List Byte} {i : Instr} :
    decodeBytes (op :: tail) = .ok (i, rest) ↔
      ∃ h, decodeOpcode op = some h ∧ h.format.operandBytes ≤ tail.length ∧
        h.assemble (tail.getD 0 0#8) (tail.getD 1 0#8) = i ∧ tail.drop h.format.operandBytes = rest := by
  cases mapped : decodeOpcode op with
  | none => simp [decodeBytes, mapped]
  | some h =>
    simp only [decodeBytes, mapped, Option.some.injEq, exists_eq_left']
    by_cases enough : h.format.operandBytes ≤ tail.length
    · simp [enough, Nat.not_lt.mpr enough]
    · simp [enough, Nat.lt_of_not_le enough]

theorem decodeBytes_encode_append (i : Instr) (rest : List Byte) : decodeBytes (encode i ++ rest) = .ok (i, rest) := by
  obtain ⟨h, b1, b2, rfl⟩ := exists_eq_assemble i
  rw [encode_assemble, List.cons_append]
  refine decodeBytes_cons_eq_ok_iff.mpr ⟨h, decodeOpcode_opcode h, ?_⟩
  cases h <;> simp [Handler.format, Format.operandBytes, Handler.assemble]

theorem eq_encode_append_of_decodeBytes {bytes rest : List Byte} {i : Instr}
    (accepted : decodeBytes bytes = .ok (i, rest)) : bytes = encode i ++ rest := by
  cases bytes with
  | nil => cases accepted
  | cons op tail =>
    obtain ⟨h, mapped, enough, rfl, rfl⟩ := decodeBytes_cons_eq_ok_iff.mp accepted
    rw [encode_assemble, take_operands (operandBytes_le_two h) enough, List.cons_append, List.take_append_drop,
      decodeOpcode_eq_some_iff.mp mapped]

theorem decodeBytes_eq_ok_iff {bytes rest : List Byte} {i : Instr} :
    decodeBytes bytes = .ok (i, rest) ↔ bytes = encode i ++ rest :=
  ⟨eq_encode_append_of_decodeBytes, fun encoded => encoded ▸ decodeBytes_encode_append i rest⟩

/-- A byte string is well formed exactly when the decoder accepts it and nothing is left of it. -/
theorem wellFormedBytes_iff_decodeBytes {bytes : List Byte} :
    wellFormedBytes bytes = true ↔ ∃ i, decodeBytes bytes = .ok (i, []) := by
  cases bytes with
  | nil => simp [wellFormedBytes, decodeBytes]
  | cons op tail =>
    simp only [decodeBytes_cons_eq_ok_iff]
    cases mapped : decodeOpcode op with
    | none => simp [wellFormedBytes, mapped]
    | some h =>
      have same_length : tail.length = h.format.operandBytes ↔
          h.format.operandBytes ≤ tail.length ∧ tail.length ≤ h.format.operandBytes := by omega
      simp [wellFormedBytes, mapped, ← same_length]

/-! ### The decoder of the machine -/

/-- Three bytes of the instruction stream decode to the instruction whose encoding they begin with (R50). -/
theorem decode_eq_instr_iff {op b1 b2 : Byte} {i : Instr} :
    decode op b1 b2 = .instr i ↔ encode i <+: [op, b1, b2] := by
  have as_string : decode op b1 b2 = .instr i ↔ ∃ rest, decodeBytes [op, b1, b2] = .ok (i, rest) := by
    simp only [decodeBytes_cons_eq_ok_iff]
    cases mapped : decodeOpcode op with
    | none => simp [decode, mapped]
    | some h => simp [decode, mapped, operandBytes_le_two h]
  rw [as_string]
  simp only [decodeBytes_eq_ok_iff, List.IsPrefix, eq_comm (a := [op, b1, b2])]

theorem decode_eq_unimplemented_iff {op b1 b2 op' : Byte} :
    decode op b1 b2 = .unimplemented op' ↔ op' = op ∧ op ∉ Machine.implementedOpcodes := by
  rw [← decodeOpcode_eq_none_iff]
  unfold decode
  cases decodeOpcode op <;> simp [eq_comm]

theorem decode_opcode (h : Handler) (b1 b2 : Byte) : decode h.opcode b1 b2 = .instr (h.assemble b1 b2) := by
  rw [decode, decodeOpcode_opcode]

end Sys2Proof

namespace Sys2Proof.Machine

/-- Settles O1: the opcode byte maps back to the handler and the operand bytes reassemble to the operand. -/
theorem decodeOfEncodeIsIdentity : Obligations.DecodeOfEncodeIsIdentity :=
  fun i rest _ => decodeBytes_encode_append i rest

/-- Settles O2: an accepted string begins with the handler's opcode and the operand bytes the assembly took. -/
theorem acceptedBytesAreTheEncoding : Obligations.AcceptedBytesAreTheEncoding :=
  fun _ _ _ => eq_encode_append_of_decodeBytes

/-- Settles O3: both sides say that the decoder accepts the string and leaves nothing. -/
theorem wellFormedBytesAreEncodings : Obligations.WellFormedBytesAreEncodings := by
  intro bytes
  simp only [wellFormedBytes_iff_decodeBytes, decodeBytes_eq_ok_iff, List.append_nil]

/-- Settles O4: a byte with a handler is that handler's opcode, and a byte without one is none of the nine. -/
theorem opcodeMapIsExact : Obligations.OpcodeMapIsExact := by
  intro op b1 b2
  cases mapped : decodeOpcode op with
  | some h =>
    rw [decodeOpcode_eq_some_iff.mp mapped, decode_opcode]
    cases h <;> rfl
  | none =>
    have unlisted := decodeOpcode_eq_none_iff.mp mapped
    rw [decode_eq_unimplemented_iff.mpr ⟨rfl, unlisted⟩]
    simp only [implementedOpcodes, List.mem_cons, List.not_mem_nil, or_false, not_or] at unlisted
    simp only [unlisted, if_false]

/-- Settles O5: the five words, evaluated. -/
theorem writtenOutWordsDecode : Obligations.WrittenOutWordsDecode := by
  unfold Obligations.WrittenOutWordsDecode
  decide

end Sys2Proof.Machine
end

section
/-! Fetching and stepping: which instruction is fetched, what a step does in each run state, and how far an instruction
lowers the counter (30_encoding R50; 40_execution_loop_and_primitives R88 to R92). -/

namespace Sys2Proof.Machine

section
variable {s : State}

/-! ### Fetching -/

/-- The instruction whose encoding lies at `pc` is fetched: the three bytes looked at begin with it. -/
theorem fetchInstr_of_encode_at_pc {i : Instr}
    (lies : ∀ k : Nat, k < (encode i).length →
      (encode i)[k]? = some (s.mem.readByte (s.pc + BitVec.ofNat 16 k))) :
    fetchInstr s = .instr i := by
  refine decode_eq_instr_iff.mpr (List.prefix_iff_getElem?.mpr fun k inside => ?_)
  have within_three : k < 3 := calc
    k < 1 + i.handler.format.operandBytes := (encode_length i).subst inside
    _ ≤ 3 := Nat.add_le_add_left (operandBytes_le_two i.handler) 1
  rw [← List.getElem?_eq_getElem, lies k inside]
  interval_cases k <;> simp

theorem fetchInstr_eq_unimplemented_iff {op : Byte} :
    fetchInstr s = .unimplemented op ↔ op = s.mem.readByte s.pc ∧ s.mem.readByte s.pc ∉ implementedOpcodes :=
  decode_eq_unimplemented_iff

/-! ### The step by run state -/

theorem step_of_faulted {r : FaultRecord} (latched : s.fault = some r) :
    step s = .fault (.unimplementedOpcode r.op r.addr) := by
  simp [step, turn, latched]

theorem step_of_idle (unlatched : s.fault = none) (spent : s.cyc ≤ 0) : step s = .next s := by
  simp [step, turn, unlatched, Int.not_lt.mpr spent]

theorem step_of_fetched {i : Instr} (unlatched : s.fault = none) (budget : 0 < s.cyc) (fetched : fetchInstr s = .instr i) :
    step s = exec i s := by
  simp only [step_of_running unlatched budget, stepInstr, fetched]

theorem step_of_unimplemented {op : Byte} (unlatched : s.fault = none) (budget : 0 < s.cyc)
    (fetched : fetchInstr s = .unimplemented op) :
    step s = .next (raiseUnimplemented op s.pc (consumeByte s)) := by
  simp only [step_of_running unlatched budget, stepInstr, fetched]

end

section
variable (s : State)

/-! ### Placing an instruction -/

@[simp] theorem withFetchWord_fault (nbits w : Nat) : (s.withFetchWord nbits w).fault = none := rfl

theorem withFetchWord_cyc_pos (nbits w : Nat) : 0 < (s.withFetchWord nbits w).cyc := by
  show (0 : Int) < if 0 < s.cyc then s.cyc else 1
  split <;> omega

/-- The three bytes placed are the three bytes fetched, wherever `pc` is: they lie at three different addresses. -/
theorem fetchInstr_withFetchWord (nbits w : Nat) :
    fetchInstr (s.withFetchWord nbits w) = decode (tableByte nbits w 0) (tableByte nbits w 1) (tableByte nbits w 2) := by
  have zero_ne_one : s.pc ≠ s.pc + 1#16 := by bv_omega
  have zero_ne_two : s.pc ≠ s.pc + 2#16 := by bv_omega
  have one_ne_two : s.pc + 1#16 ≠ s.pc + 2#16 := by bv_omega
  simp [fetchInstr, State.withFetchWord, makeRunning, placeInstr, Memory.readByte_writeByte, zero_ne_one, zero_ne_two,
    one_ne_two]

theorem decodeTableWord_eq_some_iff {nbits w : Nat} {i : Instr} :
    decodeTableWord nbits w = some i ↔
      decode (tableByte nbits w 0) (tableByte nbits w 1) (tableByte nbits w 2) = .instr i := by
  unfold decodeTableWord
  cases decode (tableByte nbits w 0) (tableByte nbits w 1) (tableByte nbits w 2) <;> simp

/-! ### What an instruction costs -/

theorem isLoad_or_eq_jsr (i : Instr) : isLoad i = true ∨ ∃ target, i = .jsr target := by
  cases i with
  | jsr target => exact .inr ⟨target, rfl⟩
  | _ => exact .inl rfl

/-- Every instruction completes and charges its row of the table (R92). -/
theorem exec_next_cyc (i : Instr) : ∃ t, exec i s = .next t ∧ t.cyc = s.cyc - cycleCost i s := by
  obtain load | ⟨target, rfl⟩ := isLoad_or_eq_jsr i
  · obtain ⟨v, loaded⟩ := exec_eq_afterLoad s load
    exact ⟨_, loaded, rfl⟩
  · exact ⟨_, exec_jsr_eq s target, by rw [callTo_eq]; rfl⟩

/-- Three rows depend on a page crossing, the others are fixed. -/
theorem cycleCost_bounds (i : Instr) : 2 ≤ cycleCost i s ∧ cycleCost i s ≤ 6 := by
  cases i with
  | ldaAbsx a16 | ldaAbsy a16 | ldaIndy d8 =>
    simp only [cycleCost]
    split <;> decide
  | _ => simp [cycleCost]

variable {s}

/-- A running core always answers a next state, lower by the instruction's cost or, at a fault, by the opcode fetch. -/
theorem step_next_of_running (unlatched : s.fault = none) (budget : 0 < s.cyc) :
    ∃ t, step s = .next t ∧ t.cyc ≤ s.cyc - 1 ∧ s.cyc - 6 ≤ t.cyc := by
  cases fetched : fetchInstr s with
  | instr i =>
    obtain ⟨t, ran, cost⟩ := exec_next_cyc s i
    have bounds := cycleCost_bounds s i
    exact ⟨t, (step_of_fetched unlatched budget fetched).trans ran, by omega, by omega⟩
  | unimplemented op =>
    refine ⟨_, step_of_unimplemented unlatched budget fetched, ?_⟩
    simp only [raiseUnimplemented_cyc, consumeByte_cyc]
    omega

end

/-! ### The statements -/

/-- Settles O7: the encoding at `pc` is the beginning of the three bytes decoded. -/
theorem fetchReadsEncodedInstruction : Obligations.FetchReadsEncodedInstruction :=
  fun _ _ => fetchInstr_of_encode_at_pc

/-- Settles O8: with no fault and a budget the turn is `Step()`, which runs what was decoded. -/
theorem stepRunsDecodedInstruction : Obligations.StepRunsDecodedInstruction :=
  fun _ _ => step_of_fetched

/-- Settles O9: the placed core is running and fetches the three bytes of the word. -/
theorem placedInstructionRunsNext : Obligations.PlacedInstructionRunsNext :=
  fun s nbits w _ decoded => step_of_fetched (withFetchWord_fault s nbits w) (withFetchWord_cyc_pos s nbits w)
    ((fetchInstr_withFetchWord s nbits w).trans (decodeTableWord_eq_some_iff.mp decoded))

/-- Settles O10: the loop test fails. -/
theorem idleCoreHoldsItsState : Obligations.IdleCoreHoldsItsState :=
  fun _ => step_of_idle

/-- Settles O11: by what is fetched, an instruction or an unimplemented byte. -/
theorem runningStepLowersCounter : Obligations.RunningStepLowersCounter :=
  fun _ => step_next_of_running

/-- Settles O33: every arm of `exec` answers a next state. -/
theorem everyInstructionCompletes : Obligations.EveryInstructionCompletes := by
  intro i s
  obtain ⟨t, ran, -⟩ := exec_next_cyc s i
  exact ⟨t, ran⟩

/-- Settles O34: the cost charged is the table's, and every row lies between 2 and 6. -/
theorem cycleCostsAreTheTable : Obligations.CycleCostsAreTheTable :=
  fun i s => ⟨exec_next_cyc s i, cycleCost_bounds s i⟩

end Sys2Proof.Machine
end

section
/-! `Execute(b)` against the step: the loop is the step iterated, it stops within its fuel, and the counter stays within the
bounds of 40_execution_loop_and_primitives R89, R90. -/

namespace Sys2Proof.Machine

section
variable {s : State}

/-! ### Ends of a run -/

theorem ended_iff_not_running : runState s ≠ .running ↔ NormalEnd s ∨ FaultEnd s := by
  rw [Ne, runState_running_iff, NormalEnd, FaultEnd]
  cases s.fault <;> simp

/-! ### The loop -/

/-- The loop of a running core takes one step and goes on with the fuel left. -/
theorem loop_of_step {t : State} (running : runState s = .running) (stepped : step s = .next t) (fuel : Nat) :
    loop (fuel + 1) s = loop fuel t := by
  obtain ⟨unlatched, budget⟩ := (runState_running_iff s).mp running
  exact loop_of_running running ((step_of_running unlatched budget).symm.trans stepped) fuel

theorem core_run_succ_of_step {t : State} (stepped : step s = .next t) (k : Nat) :
    Host.Core.run core (k + 1) s = Host.Core.run core k t := by
  have core_stepped : core.step s = .next t := stepped
  simp only [Host.Core.run, core_stepped]

/-- The loop is the machine's step, iterated no more often than it has fuel. -/
theorem loop_eq_run (fuel : Nat) (s : State) : ∃ k ≤ fuel, loop fuel s = Host.Core.run core k s := by
  induction fuel generalizing s with
  | zero => exact ⟨0, le_rfl, rfl⟩
  | succ fuel ih =>
    by_cases running : runState s = .running
    · obtain ⟨unlatched, budget⟩ := (runState_running_iff s).mp running
      obtain ⟨t, stepped, -⟩ := step_next_of_running unlatched budget
      obtain ⟨k, within, iterated⟩ := ih t
      refine ⟨k + 1, Nat.succ_le_succ within, ?_⟩
      rw [loop_of_step running stepped, core_run_succ_of_step stepped, iterated]
    · exact ⟨0, Nat.zero_le _, loop_of_not_running running _⟩

/-- Fuel for the cycles left is enough for the loop to stop, because every step charges a cycle; and because it charges at
most 6, the last one overruns by at most 5. -/
theorem loop_ends {fuel : Nat} (enough : s.cyc ≤ fuel) :
    ∃ t, loop fuel s = .next t ∧ runState t ≠ .running ∧ t.cyc ≤ s.cyc ∧ (-5 ≤ s.cyc → -5 ≤ t.cyc) := by
  induction fuel generalizing s with
  | zero =>
    refine ⟨s, rfl, fun running => ?_, le_rfl, id⟩
    obtain ⟨-, budget⟩ := (runState_running_iff s).mp running
    omega
  | succ fuel ih =>
    by_cases running : runState s = .running
    · obtain ⟨unlatched, budget⟩ := (runState_running_iff s).mp running
      obtain ⟨u, stepped, lowered, bounded⟩ := step_next_of_running unlatched budget
      obtain ⟨t, ran, stopped, below, above⟩ := ih (s := u) (by omega)
      exact ⟨t, (loop_of_step running stepped fuel).trans ran, stopped, by omega, fun _ => above (by omega)⟩
    · exact ⟨s, loop_of_not_running running _, running, le_rfl, id⟩

/-- Every execute call of a core with no fault latched ends, within the bounds on the counter (R90). -/
theorem execute_ends (unlatched : s.fault = none) (b : Int) :
    ∃ t, execute b s = .next t ∧ runState t ≠ .running ∧ t.cyc ≤ b ∧ (-5 ≤ b → -5 ≤ t.cyc) := by
  rw [execute_unlatched unlatched]
  exact loop_ends (s := { s with cyc := b }) (Int.self_le_toNat b)

end

/-! ### The statements -/

/-- Settles O53: the budget is fuel enough, and the overrun is that of the last step. -/
theorem executeEndsWithinBounds : Obligations.ExecuteEndsWithinBounds := by
  intro b s unlatched budget
  obtain ⟨t, ran, stopped, below, above⟩ := execute_ends unlatched b
  exact ⟨t, ran, ended_iff_not_running.mp stopped, above (by omega), below⟩

/-- Settles O54: the loop behind the call is the iterated step, and it stopped because the core did. -/
theorem executeRefinesIteratedStep : Obligations.ExecuteRefinesIteratedStep := by
  intro b s t unlatched ran
  obtain ⟨u, ended, stopped, -⟩ := execute_ends unlatched b
  cases ran.symm.trans ended
  obtain ⟨k, within, iterated⟩ := loop_eq_run b.toNat { s with cyc := b }
  exact ⟨stopped, k, within, iterated.symm.trans ((execute_unlatched unlatched b).symm.trans ran)⟩

/-- Settles O51: with the budget loaded the core is idle. -/
theorem noBudgetRunsNothing : Obligations.NoBudgetRunsNothing := by
  intro b s unlatched spent
  have idle : runState { s with cyc := b } = .idle := (runState_idle_iff _).mpr ⟨unlatched, spent⟩
  rw [execute_unlatched unlatched, loop_of_not_running (by simp [idle])]

/-- Settles O52: the loop takes one step, and then has no fuel left. -/
theorem executeOneRunsOneInstruction : Obligations.ExecuteOneRunsOneInstruction := by
  intro s unlatched
  have running : runState { s with cyc := 1 } = .running := (runState_running_iff _).mpr ⟨unlatched, Int.one_pos⟩
  obtain ⟨t, stepped, -⟩ := step_next_of_running (s := { s with cyc := 1 }) unlatched Int.one_pos
  rw [execute_unlatched unlatched, stepped]
  exact loop_of_step running stepped 0

end Sys2Proof.Machine
end

section
/-! The invariant of the machine, kept by the state after a load, after a call and after a fault, and met by reset. -/

namespace Sys2Proof.Machine

section
variable {s : State}

/-! ### The parts of a call that has run -/

@[simp] theorem callTo_fault (s : State) (target : Addr) : (callTo target s).fault = s.fault := rfl

theorem callTo_fetched_cyc (target : Addr) : (callTo target (consumeWord (consumeByte s))).cyc = s.cyc - 6 := by
  rw [callTo_eq]

/-! ### The invariant, by what a step does -/

/-- `SetZN` never sets both flags: no byte is 0 with bit 7 set (40_execution_loop_and_primitives R87). -/
theorem setZN_not_both (v : Byte) : ¬ ((setZN v s).flags.z = true ∧ (setZN v s).flags.n = true) := by
  simp only [setZN_z, setZN_n, decide_eq_true_eq]
  omega

theorem afterLoad_inv (inv : s.Inv) (budget : 0 < s.cyc) (v : Byte) (len : Addr) {cost : Int} (bounded : cost ≤ 6) :
    (afterLoad s v len cost).Inv where
  memCanonical := inv.memCanonical
  cycBound := by
    show -5 ≤ s.cyc - cost
    omega
  zeroNotNegative := afterLoad_flags_eq_setZN s v len cost ▸ setZN_not_both v
  faultGenuine := inv.faultGenuine

theorem callTo_inv (inv : s.Inv) (budget : 0 < s.cyc) (target : Addr) :
    (callTo target (consumeWord (consumeByte s))).Inv where
  memCanonical := by
    rw [callTo_mem]
    exact pushWord_mem_wf (s := internal (consumeWord (consumeByte s))) inv.memCanonical _
  cycBound := by
    rw [callTo_fetched_cyc]
    omega
  zeroNotNegative := by
    rw [callTo_flags]
    exact inv.zeroNotNegative
  faultGenuine := by
    rw [callTo_fault]
    exact inv.faultGenuine

theorem raiseUnimplemented_inv (inv : s.Inv) (budget : 0 < s.cyc) {op : Byte} (unlisted : op ∉ implementedOpcodes)
    (addr : Addr) : (raiseUnimplemented op addr (consumeByte s)).Inv where
  memCanonical := inv.memCanonical
  cycBound := by
    simp only [raiseUnimplemented_cyc, consumeByte_cyc]
    omega
  zeroNotNegative := inv.zeroNotNegative
  faultGenuine := by
    rintro r ⟨⟩
    exact unlisted

theorem step_keeps_inv {t : State} (inv : s.Inv) (stepped : step s = .next t) : t.Inv := by
  obtain ⟨-, -, rfl⟩ | ⟨-, budget, i, v, -, -, rfl⟩ | ⟨-, budget, target, -, rfl⟩ | ⟨-, budget, op, fetched, rfl⟩ :=
    step_next_cases stepped
  · exact inv
  · exact afterLoad_inv inv budget v _ (cycleCost_bounds s i).2
  · exact callTo_inv inv budget target
  · obtain ⟨rfl, unlisted⟩ := fetchInstr_eq_unimplemented_iff.mp fetched
    exact raiseUnimplemented_inv inv budget unlisted s.pc

theorem resetWith_inv (cfg : Config) : (State.resetWith cfg).Inv where
  memCanonical := Memory.wf_initialize
  cycBound := by
    show (-5 : Int) ≤ 0
    decide
  zeroNotNegative := fun both => Bool.false_ne_true both.1
  faultGenuine := by rintro r ⟨⟩

end

/-- Settles O55: an idle step changes nothing, and each of the three things a running step does keeps the invariant. -/
theorem stepKeepsInv : Obligations.StepKeepsInv :=
  fun _ _ => step_keeps_inv

/-- Settles O56: reset's memory is the initialized one, its counter 0, its flags clear and its latch empty. -/
theorem resetMeetsInv : Obligations.ResetMeetsInv :=
  ⟨resetWith_inv, resetWith_inv Config.hardware⟩

end Sys2Proof.Machine
end

section
/-! The fault latch and the host: how a fault is latched, what the latch stops, and what each host action writes
(60_exceptions R130 to R132; 10_state R20, R23). -/

namespace Sys2Proof.Machine

/-! ### The host's moves -/

theorem hostAct_eq_none_iff {act : HostAction} {s : State} : hostAct act s = none ↔ runState s = .running := by
  unfold hostAct
  cases runState s <;> simp

/-- A move the host makes has the effect of its action. -/
theorem hostEffect_of_hostAct {act : HostAction} {s t : State} (moved : hostAct act s = some (.next t)) :
    hostEffect act s = .next t :=
  (hostAct_eq_some_iff.mp moved).2.symm

/-- Reset and `Execute` are the only actions that touch the counter or the latch (R23). -/
theorem hostEffect_write_keeps {act : HostAction} {s t : State} (effect : hostEffect act s = .next t)
    (no_reset : act ≠ .reset) (no_execute : ∀ b, act ≠ .execute b) : t.cyc = s.cyc ∧ t.fault = s.fault := by
  cases act with
  | reset => exact absurd rfl no_reset
  | execute b => exact absurd rfl (no_execute b)
  | _ =>
    cases effect
    exact ⟨rfl, rfl⟩

theorem Flags.get_set (f : Flags) (k j : FlagName) (bit : Bool) :
    (f.set k bit).get j = if j = k then bit else f.get j := by
  cases k <;> cases j <;> rfl

theorem runState_ne_running_of_latched {s : State} {r : FaultRecord} (latched : s.fault = some r) :
    runState s ≠ .running := by
  simp [runState, latched]

/-! ### The statements -/

/-- Settles O45: the fault is raised on the state after the opcode fetch, which differs in `pc` and `cyc` only. -/
theorem unimplementedOpcodeLatchesFault : Obligations.UnimplementedOpcodeLatchesFault := by
  intro s unlatched budget unlisted
  have fetched := fetchInstr_eq_unimplemented_iff.mpr ⟨rfl, unlisted⟩
  exact ⟨_, step_of_unimplemented unlatched budget fetched, rfl, rfl, rfl, rfl, rfl, rfl, rfl⟩

/-- Settles O46: an idle step, a load and a call keep the empty latch. -/
theorem onlyUnimplementedOpcodesFault : Obligations.OnlyUnimplementedOpcodesFault := by
  intro s t unlatched stepped latched
  obtain ⟨-, -, rfl⟩ | ⟨-, -, i, v, -, -, rfl⟩ | ⟨-, -, target, -, rfl⟩ | ⟨-, budget, op, fetched, -⟩ :=
    step_next_cases stepped
  · exact absurd unlatched latched
  · exact absurd ((afterLoad_fault s v _ _).trans unlatched) latched
  · exact absurd ((callTo_fault _ target).trans unlatched) latched
  · exact ⟨budget, (fetchInstr_eq_unimplemented_iff.mp fetched).2⟩

/-- Settles O47: the latch decides the step and the call, and of the host's writes only reset reaches it. -/
theorem faultIsStickyUntilReset : Obligations.FaultIsStickyUntilReset := by
  intro s r latched
  refine ⟨step_of_faulted latched, execute_latched latched, fun act t no_reset moved => ?kept,
    hostAct_reset (runState_ne_running_of_latched latched)⟩
  case kept =>
    have effect := hostEffect_of_hostAct moved
    by_cases executed : ∃ b, act = .execute b
    · obtain ⟨b, rfl⟩ := executed
      cases (execute_latched latched b).symm.trans effect
      exact latched
    · obtain ⟨-, same_latch⟩ := hostEffect_write_keeps effect no_reset (not_exists.mp executed)
      exact same_latch.trans latched

/-- Settles O48: the fields of the reset state, and 0x00 read from its empty memory. -/
theorem resetValues : Obligations.ResetValues :=
  ⟨fun _ b => ⟨rfl, rfl, rfl, rfl, rfl, rfl, Memory.readByte_initialize b, rfl, rfl⟩, rfl, rfl⟩

/-- Settles O50: a move is answered with its action's effect, and each write's effect is an update of what it names. -/
theorem hostActsOnlyWhenNotRunning : Obligations.HostActsOnlyWhenNotRunning := by
  refine ⟨fun act s => hostAct_eq_none_iff, fun act s t moved => hostEffect_write_keeps (hostEffect_of_hostAct moved),
    fun s t a v moved => ?mem, fun s t v moved => ?x, fun s t v moved => ?y, fun s t v moved => ?a,
    fun s t v moved => ?sp, fun s t v moved => ?pc, fun s t k j bit moved => ?flag⟩
  all_goals cases hostEffect_of_hostAct moved
  case mem => exact ⟨rfl, fun b => Memory.readByte_writeByte s.mem a b v⟩
  case flag => exact ⟨rfl, Flags.get_set s.flags k j bit⟩
  all_goals rfl

end Sys2Proof.Machine
end

section
/-! Words in memory and on the stack: where the two bytes of a word lie, when a zero-page pointer or a stack slot wraps, and
when an indexed sum leaves its page (40_execution_loop_and_primitives R73 to R79, R84). -/

namespace Sys2Proof.Machine

/-! ### Addresses by their values -/

theorem addr_add_one_ne (a : Addr) : a + 1#16 ≠ a := by
  bv_omega

theorem stackAddr_toNat (p : Byte) : (stackAddr p).toNat = 256 + p.toNat := by
  simp [stackAddr, ofBytes_toNat]

theorem loByte_toNat (w : Addr) : (loByte w).toNat = w.toNat % 256 := by
  simp [loByte]

theorem hiByte_toNat (w : Addr) : (hiByte w).toNat = w.toNat / 256 := by
  have w_lt := w.isLt
  simp only [hiByte, BitVec.extractLsb'_toNat, Nat.shiftRight_eq_div_pow]
  omega

theorem zext16_toNat (i : Byte) : (zext16 i).toNat = i.toNat :=
  BitVec.toNat_setWidth_of_le (by decide)

/-- Page 0 is left only from its last byte. -/
theorem zeroPage_add_one {p : Byte} (no_wrap : p ≠ 0xFF#8) : zeroPage (p + 1#8) = zeroPage p + 1#16 := by
  apply BitVec.eq_of_toNat_eq
  have p_lt : p.toNat < 255 := by bv_omega
  rw [zeroPage_toNat, BitVec.toNat_add, BitVec.toNat_add, zeroPage_toNat, BitVec.toNat_ofNat, BitVec.toNat_ofNat]
  omega

/-- So is the stack page. -/
theorem stackAddr_add_one {p : Byte} (no_wrap : p ≠ 0xFF#8) : stackAddr (p + 1#8) = stackAddr p + 1#16 := by
  apply BitVec.eq_of_toNat_eq
  have p_lt : p.toNat < 255 := by bv_omega
  rw [stackAddr_toNat, BitVec.toNat_add, BitVec.toNat_add, stackAddr_toNat, BitVec.toNat_ofNat, BitVec.toNat_ofNat]
  omega

theorem sp_sub_two_add_one (p : Byte) : p - 2#8 + 1#8 = p - 1#8 := by
  bv_omega

/-- The two slots of a push are neighbours in memory unless the stack pointer wraps between them. -/
theorem stackAddr_sub_two_add_one {p : Byte} (no_wrap : p ≠ 0x01#8) :
    stackAddr (p - 2#8) + 1#16 = stackAddr (p - 1#8) := by
  rw [← stackAddr_add_one (by bv_omega), sp_sub_two_add_one]

/-! ### Page crossing -/

theorem pageCross_iff {base ea : Addr} : pageCross base ea = true ↔ hiByte ea ≠ hiByte base :=
  bne_iff_ne

theorem add_zext16_toNat (base : Addr) (index : Byte) :
    (base + zext16 index).toNat = (base.toNat + index.toNat) % 65536 := by
  rw [BitVec.toNat_add, zext16_toNat]

/-- An index is less than a page, so the high byte changes by the carry of the low byte alone. -/
theorem pageCross_indexed_iff (base : Addr) (index : Byte) :
    pageCross base (base + zext16 index) = true ↔ 256 ≤ (loByte base).toNat + index.toNat := by
  have base_lt := base.isLt
  have index_lt := index.isLt
  rw [pageCross_iff, Ne, ← BitVec.toNat_inj, hiByte_toNat, hiByte_toNat, add_zext16_toNat, loByte_toNat]
  omega

/-! ### Zero-page pointers -/

theorem zpPointerHigh_of_wrap {cfg : Config} (wrap : cfg.zpPtrWrap = true) (p : Byte) :
    zpPointerHigh cfg p = zeroPage (p + 1#8) := by
  simp [zpPointerHigh, wrap]

theorem zpPointerHigh_of_no_wrap {cfg : Config} (no_wrap : cfg.zpPtrWrap = false) (p : Byte) :
    zpPointerHigh cfg p = zeroPage p + 1#16 := by
  simp [zpPointerHigh, no_wrap]

/-- Off the last byte of page 0 the parameter makes no difference. -/
theorem zpPointerHigh_of_ne (cfg : Config) {p : Byte} (inside : p ≠ 0xFF#8) :
    zpPointerHigh cfg p = zeroPage p + 1#16 := by
  unfold zpPointerHigh
  split
  · exact zeroPage_add_one inside
  · rfl

theorem zpPointerHigh_last (cfg : Config) :
    zpPointerHigh cfg 0xFF#8 = if cfg.zpPtrWrap then 0x0000#16 else 0x0100#16 := by
  unfold zpPointerHigh
  split <;> rfl

section
variable (s : State)

theorem readWordZP_of_no_wrap {cfg : Config} (no_wrap : cfg.zpPtrWrap = false) (p : Byte) :
    readWordZP cfg p s = readWordAt (zeroPage p) s := by
  rw [readWordZP_eq, readWordAt_eq, zpPointerHigh_of_no_wrap no_wrap]

theorem readWordZP_of_ne (cfg : Config) {p : Byte} (inside : p ≠ 0xFF#8) :
    readWordZP cfg p s = readWordAt (zeroPage p) s := by
  rw [readWordZP_eq, readWordAt_eq, zpPointerHigh_of_ne cfg inside]

theorem readWordZP_last_fst (cfg : Config) :
    (readWordZP cfg 0xFF#8 s).1 =
      ofBytes (s.mem.readByte (if cfg.zpPtrWrap then 0x0000#16 else 0x0100#16)) (s.mem.readByte 0x00FF#16) := by
  rw [readWordZP_eq, zpPointerHigh_last]
  rfl

/-! ### Words written -/

/-- The high byte is written last; the two addresses differ, so the order does not matter. -/
theorem writeWordAt_readByte (a v b : Addr) :
    (writeWordAt a v s).mem.readByte b =
      if b = a + 1#16 then hiByte v else if b = a then loByte v else s.mem.readByte b := by
  simp [writeWordAt, Memory.readByte_writeByte]

theorem writeWordAt_readByte_low (a v : Addr) : (writeWordAt a v s).mem.readByte a = loByte v := by
  rw [writeWordAt_readByte, if_neg (addr_add_one_ne a).symm, if_pos rfl]

theorem writeWordAt_readByte_high (a v : Addr) : (writeWordAt a v s).mem.readByte (a + 1#16) = hiByte v := by
  rw [writeWordAt_readByte, if_pos rfl]

theorem writeWordAt_readByte_ne (v : Addr) {a b : Addr} (not_low : b ≠ a) (not_high : b ≠ a + 1#16) :
    (writeWordAt a v s).mem.readByte b = s.mem.readByte b := by
  rw [writeWordAt_readByte, if_neg not_high, if_neg not_low]

/-! ### Words pushed -/

theorem pushWord_readByte_ne (w : Addr) {b : Addr} (not_high : b ≠ stackAddr (s.sp - 1#8))
    (not_low : b ≠ stackAddr (s.sp - 2#8)) : (pushWord w s).mem.readByte b = s.mem.readByte b := by
  rw [pushWord_eq, Memory.readByte_writeByte_ne not_low, Memory.readByte_writeByte_ne not_high]

/-- Without a wrap between its slots a push is the word write at the lowered stack pointer. -/
theorem pushWord_readByte_eq_writeWordAt (w b : Addr) (no_wrap : s.sp ≠ 0x01#8) :
    (pushWord w s).mem.readByte b = (writeWordAt (stackAddr (s.sp - 2#8)) w s).mem.readByte b := by
  have neighbours := stackAddr_sub_two_add_one no_wrap
  by_cases high : b = stackAddr (s.sp - 1#8)
  · rw [high, pushWord_readByte_high, ← neighbours, writeWordAt_readByte_high]
  · by_cases low : b = stackAddr (s.sp - 2#8)
    · rw [low, pushWord_readByte_low, writeWordAt_readByte_low]
    · rw [pushWord_readByte_ne s w high low, writeWordAt_readByte_ne s w low (neighbours ▸ high)]

end

/-! ### The statements -/

/-- Settles O14: the two byte reads, with the pointer's high byte where `zpPointerHigh` says. -/
theorem wordReadsAreLittleEndian : Obligations.WordReadsAreLittleEndian := by
  refine ⟨fun a s => readWordAt_eq s a, fun cfg p s wrap => ?wraps, fun cfg p s no_wrap => readWordZP_of_no_wrap s no_wrap p,
    fun cfg p s inside => readWordZP_of_ne s cfg inside⟩
  case wraps =>
    rw [readWordZP_eq, zpPointerHigh_of_wrap wrap]
    rfl

/-- Settles O15: the two bytes lie at different addresses, and together they are the word. -/
theorem writtenWordReadsBack : Obligations.WrittenWordReadsBack := by
  intro a v s
  refine ⟨?whole, writeWordAt_readByte_low s a v, writeWordAt_readByte_high s a v,
    fun b not_low not_high => writeWordAt_readByte_ne s v not_low not_high, rfl⟩
  case whole =>
    simp only [readWordAt_eq, writeWordAt_readByte_low, writeWordAt_readByte_high, ofBytes_hi_lo]

/-- Settles O17: the two slots, the bytes off them, and the rest of the state by the push's equation. -/
theorem pushWordStaysInStackPage : Obligations.PushWordStaysInStackPage := by
  intro w s
  refine ⟨pushWord_readByte_high s w, pushWord_readByte_low s w,
    fun b not_high not_low => pushWord_readByte_ne s w not_high not_low, ?rest⟩
  case rest => rw [pushWord_eq]

/-- Settles O19: the slots are neighbours unless the stack pointer is 0x01, where they are 0x0100 and 0x01FF. -/
theorem wordWriteMatchesPushOffWrap : Obligations.WordWriteMatchesPushOffWrap := by
  refine ⟨fun w s b no_wrap => pushWord_readByte_eq_writeWordAt s w b no_wrap, fun w s wrap => ?_⟩
  have high_slot : stackAddr (s.sp - 1#8) = 0x0100#16 := by rw [wrap]; rfl
  have low_slot : stackAddr (s.sp - 2#8) = 0x01FF#16 := by rw [wrap]; rfl
  rw [low_slot]
  refine ⟨?pushed, ?written, ?kept⟩
  case pushed => exact high_slot ▸ pushWord_readByte_high s w
  case written => exact writeWordAt_readByte_high s 0x01FF#16 w
  case kept => exact writeWordAt_readByte_ne s w (by decide) (by decide)

/-- Settles O20: both addresses by their values, split into page and offset. -/
theorem pageCrossIsCarryOfLowByte : Obligations.PageCrossIsCarryOfLowByte :=
  fun base index => ⟨add_zext16_toNat base index, pageCross_indexed_iff base index⟩

end Sys2Proof.Machine
end

section
/-! The loads through page 0: the indexed zero-page load and the two indirect ones, under either `ZP_PTR_WRAP`
(41_load R102, R106, R107). -/

namespace Sys2Proof.Machine

/-- The pointer of this hardware stays in page 0 (decision D9). -/
theorem readWordZP_hardware_fst (p : Byte) (s : State) :
    (readWordZP Config.hardware p s).1 =
      ofBytes (s.mem.readByte (ofBytes 0x00#8 (p + 1#8))) (s.mem.readByte (ofBytes 0x00#8 p)) := by
  rw [readWordZP_eq]
  rfl

/-- The accesses of an indexed load, split on the page crossing of any base. -/
theorem busIndexed_eq (base : Addr) (index : Byte) :
    busIndexed base index =
      if hiByte (base + zext16 index) ≠ hiByte base
        then [.internal, .read (base + zext16 index)]
        else [.read (base + zext16 index)] := by
  have assembled := busIndexed_ofBytes (hiByte base) (loByte base) index
  rwa [ofBytes_hi_lo] at assembled

/-- Settles O24: the load from the page-0 address `nn + X`, with one internal cycle before its read. -/
theorem ldaZeroPageXResult : Obligations.LdaZeroPageXResult :=
  fun nn s => ⟨exec_ldaZpx_eq s nn, rfl, rfl⟩

/-- Settles O28: the load from the address at the pointer `nn + X`. -/
theorem ldaIndirectXResult : Obligations.LdaIndirectXResult := by
  intro nn s p ea
  have pointed : (readWordZP Config.hardware p s).1 = ea := readWordZP_hardware_fst p s
  refine ⟨?result, rfl, ?accesses⟩
  case result => exact congrArg Host.Outcome.next ((ldaIndx_eq s Config.hardware nn).trans (pointed ▸ rfl))
  case accesses => exact pointed ▸ rfl

/-- Settles O29: the load from the base at the pointer `nn` plus `Y`, its cost and accesses split on the page crossing. -/
theorem ldaIndirectYResult : Obligations.LdaIndirectYResult := by
  intro nn s base ea
  have pointed : (readWordZP Config.hardware nn s).1 = base := readWordZP_hardware_fst nn s
  refine ⟨?result, rfl, ?accesses⟩
  case result =>
    show Host.Outcome.next (ldaIndy Config.hardware nn s) = _
    simp only [ldaIndy_eq, pointed, pageCross_iff, ea]
  case accesses =>
    rw [busCycles, pointed, busIndexed_eq]
    rfl

/-- Settles O30: off the pointer 0xFF the pointer is the word at its page-0 address under every configuration; at it the
high byte is the one the parameter names. -/
theorem indirectLoadsUnderEitherWrap : Obligations.IndirectLoadsUnderEitherWrap := by
  refine ⟨fun cfg nn s inside => ?indx, fun cfg nn s inside => ?indy, fun cfg nn s last => ?indx_last,
    fun cfg s => ?indy_last⟩
  case indx =>
    show Host.Outcome.next (ldaIndx Config.hardware nn s) = _
    rw [ldaIndx_eq, ldaIndx_eq, readWordZP_of_ne s _ inside, readWordZP_of_ne s _ inside]
  case indy =>
    show Host.Outcome.next (ldaIndy Config.hardware nn s) = _
    rw [ldaIndy_eq, ldaIndy_eq, readWordZP_of_ne s _ inside, readWordZP_of_ne s _ inside]
  case indx_last => rw [ldaIndx_eq, afterLoad_a, last, readWordZP_last_fst]
  case indy_last => rw [ldaIndy_eq, afterLoad_a, readWordZP_last_fst]

end Sys2Proof.Machine
end

section
/-! The call from the boundary before it: its stack slots, its frame, and calls one after another (42_subroutine_call R120 to
R122). -/

namespace Sys2Proof.Machine

section
variable (s : State)

/-! ### What a call leaves -/

@[simp] theorem callTo_a (target : Addr) : (callTo target s).a = s.a := rfl
@[simp] theorem callTo_x (target : Addr) : (callTo target s).x = s.x := rfl
@[simp] theorem callTo_y (target : Addr) : (callTo target s).y = s.y := rfl
@[simp] theorem callTo_pc (target : Addr) : (callTo target s).pc = target := rfl

theorem callTo_fetched_sp (target : Addr) : (callTo target (consumeWord (consumeByte s))).sp = s.sp - 2#8 := by
  rw [callTo_eq]

/-- The memory of a call is that of one push: the address of the call's last byte (R121). -/
theorem callTo_fetched_mem (target : Addr) :
    (callTo target (consumeWord (consumeByte s))).mem = (pushWord (s.pc + 2#16) s).mem := by
  rw [callTo_eq, pushWord_eq]

/-- A call completes, and changes `pc`, `SP`, `cyc` and the memory of its push. -/
theorem exec_jsr_next (target : Addr) :
    ∃ t : State, exec (.jsr target) s = .next t ∧
      t = { s with pc := target, sp := s.sp - 2#8, cyc := s.cyc - 6, mem := t.mem } ∧
      t.mem = (pushWord (s.pc + 2#16) s).mem := by
  refine ⟨_, exec_jsr_eq s target, ?_, callTo_fetched_mem s target⟩
  rw [callTo_eq]

/-! ### Calls one after another -/

theorem runCalls_cons (target : Addr) (rest : List Addr) :
    runCalls (target :: rest) s = runCalls rest (callTo target (consumeWord (consumeByte s))) := rfl

/-- Each call lowers the stack pointer by 2 modulo 256 and the counter by 6, whatever its target. -/
theorem runCalls_next (targets : List Addr) :
    ∃ t, runCalls targets s = .next t ∧ t.sp = s.sp - BitVec.ofNat 8 (2 * targets.length) ∧
      t.cyc = s.cyc - 6 * (targets.length : Int) := by
  induction targets generalizing s with
  | nil => exact ⟨s, rfl, by simp, by simp⟩
  | cons target rest ih =>
    obtain ⟨t, ran, lowered, charged⟩ := ih (callTo target (consumeWord (consumeByte s)))
    refine ⟨t, (runCalls_cons s target rest).trans ran, ?_, ?_⟩
    · rw [lowered, callTo_fetched_sp, List.length_cons, BitVec.sub_sub, Nat.mul_succ, Nat.add_comm, BitVec.ofNat_add]
    · rw [charged, callTo_fetched_cyc, List.length_cons]
      omega

end

/-! ### The statements -/

/-- Settles O31: the memory of a call is one push of the return address, which is read back as a word where its two slots
are neighbours. -/
theorem jsrResult : Obligations.JsrResult := by
  intro hh ll s ret
  obtain ⟨t, ran, state, pushed⟩ := exec_jsr_next s (ofBytes hh ll)
  have lowered : t.sp = s.sp - 2#8 := by rw [state]
  have high : t.mem.readByte (stackAddr (s.sp - 1#8)) = hiByte ret := pushed ▸ pushWord_readByte_high s ret
  have low : t.mem.readByte (stackAddr (s.sp - 2#8)) = loByte ret := pushed ▸ pushWord_readByte_low s ret
  refine ⟨⟨t, ran, state, high, low, ?low_at_sp, ?high_above_sp, fun no_wrap => ?word, fun b not_high not_low => ?off⟩,
    ?encoding, rfl⟩
  case low_at_sp => rw [lowered, low]
  case high_above_sp => rw [lowered, sp_sub_two_add_one, high]
  case word => rw [readWordAt_eq, lowered, stackAddr_sub_two_add_one no_wrap, high, low, ofBytes_hi_lo]
  case off => rw [pushed, pushWord_readByte_ne s _ not_high not_low]
  case encoding => rw [encode, loByte_ofBytes, hiByte_ofBytes]

/-- Settles O37: a call writes `pc`, `SP`, `cyc` and the two slots of its push. -/
theorem jsrFrame : Obligations.JsrFrame := by
  intro target s t called
  cases (exec_jsr_eq s target).symm.trans called
  refine ⟨callTo_a _ target, callTo_x _ target, callTo_y _ target, callTo_flags _ target, callTo_fault _ target,
    fun b not_high not_low => ?_⟩
  rw [callTo_fetched_mem, pushWord_readByte_ne s _ not_high not_low]

/-- Settles O43: the call is decoded before it pushes, and the low slot then holds the pushed byte. -/
theorem callTargetReadBeforePush : Obligations.CallTargetReadBeforePush := by
  rintro s hh ll unlatched budget opcode rfl rfl
  have fetched : fetchInstr s = .instr (.jsr (ofBytes (s.mem.readByte (s.pc + 2#16)) (s.mem.readByte (s.pc + 1#16)))) := by
    rw [fetchInstr, opcode]
    exact decode_opcode .jsr _ _
  refine ⟨_, (step_of_fetched unlatched budget fetched).trans (exec_jsr_eq s _), rfl, fun target_is_slot => ?_⟩
  rw [callTo_pc, target_is_slot, callTo_fetched_mem, pushWord_readByte_low]

/-- Settles O44: by induction over the calls; 128 of them lower the stack pointer by 256, which is 0 modulo 256. -/
theorem stackPointerAfterCalls : Obligations.StackPointerAfterCalls := by
  intro targets s
  obtain ⟨t, ran, lowered, charged⟩ := runCalls_next s targets
  refine ⟨t, ran, lowered, charged, fun all => ?_⟩
  rw [lowered, all]
  exact BitVec.sub_zero s.sp

end Sys2Proof.Machine
end

section
/-! Frames and noninterference: what a load and a step leave unchanged, and which registers they read (41_load;
10_state sections 2 and 4; 70_reset_and_hazards section 3). -/

namespace Sys2Proof.Machine

section
variable (s : State)

/-! ### The byte a load loads -/

/-- The byte a load in its mode puts into `A`. A call loads none, and 0x00 stands for it. -/
def loadedByte (i : Instr) (s : State) : Byte :=
  match i with
  | .ldaImm d8 => d8
  | .ldaZp d8 => s.mem.readByte (zeroPage d8)
  | .ldaZpx d8 => s.mem.readByte (zeroPage (d8 + s.x))
  | .ldaAbs a16 => s.mem.readByte a16
  | .ldaAbsx a16 => s.mem.readByte (a16 + zext16 s.x)
  | .ldaAbsy a16 => s.mem.readByte (a16 + zext16 s.y)
  | .ldaIndx d8 => s.mem.readByte (readWordZP Config.hardware (d8 + s.x) s).1
  | .ldaIndy d8 => s.mem.readByte ((readWordZP Config.hardware d8 s).1 + zext16 s.y)
  | .jsr _ => 0x00#8

/-- A load leaves `afterLoad` of its byte. -/
theorem exec_eq_afterLoad_loadedByte {i : Instr} (load : isLoad i = true) :
    exec i s = .next (afterLoad s (loadedByte i s) (BitVec.ofNat 16 i.length) (cycleCost i s)) := by
  cases i with
  | ldaImm d8 => exact exec_ldaImm_eq s d8
  | ldaZp d8 => exact exec_ldaZp_eq s d8
  | ldaZpx d8 => exact exec_ldaZpx_eq s d8
  | ldaAbs a16 => exact exec_ldaAbs_eq s a16
  | ldaAbsx a16 => exact exec_ldaAbsx_eq s a16
  | ldaAbsy a16 => exact exec_ldaAbsy_eq s a16
  | ldaIndx d8 => exact congrArg Host.Outcome.next (ldaIndx_eq s Config.hardware d8)
  | ldaIndy d8 => exact congrArg Host.Outcome.next (ldaIndy_eq s Config.hardware d8)
  | jsr target => cases load

variable {s}

/-- What an index register is worth does not matter to an instruction whose loaded byte and cost it does not change: the
call, and every load in a mode without it. -/
theorem exec_with_x {i : Instr} {t : State} {k : Byte} (same_byte : loadedByte i { s with x := k } = loadedByte i s)
    (same_cost : cycleCost i { s with x := k } = cycleCost i s) (ran : exec i s = .next t) :
    exec i { s with x := k } = .next { t with x := k } := by
  obtain load | ⟨target, rfl⟩ := isLoad_or_eq_jsr i
  · cases (exec_eq_afterLoad_loadedByte s load).symm.trans ran
    rw [exec_eq_afterLoad_loadedByte _ load, same_byte, same_cost]
    rfl
  · cases ran
    rfl

theorem exec_with_y {i : Instr} {t : State} {k : Byte} (same_byte : loadedByte i { s with y := k } = loadedByte i s)
    (same_cost : cycleCost i { s with y := k } = cycleCost i s) (ran : exec i s = .next t) :
    exec i { s with y := k } = .next { t with y := k } := by
  obtain load | ⟨target, rfl⟩ := isLoad_or_eq_jsr i
  · cases (exec_eq_afterLoad_loadedByte s load).symm.trans ran
    rw [exec_eq_afterLoad_loadedByte _ load, same_byte, same_cost]
    rfl
  · cases ran
    rfl

/-! ### Steps that stop -/

/-- A step stops exactly when the latch is set, with the latched record (60_exceptions R132). -/
theorem step_fault_iff {r : Fault} :
    step s = .fault r ↔ ∃ record, s.fault = some record ∧ r = .unimplementedOpcode record.op record.addr := by
  cases latched : s.fault with
  | some record => simp [step_of_faulted latched, eq_comm]
  | none =>
    by_cases budget : 0 < s.cyc
    · obtain ⟨t, stepped, -⟩ := step_next_of_running latched budget
      simp [stepped]
    · simp [step_of_idle latched (Int.not_lt.mp budget)]

/-! ### The stack page -/

theorem ne_stackAddr {b : Addr} (outside : hiByte b ≠ 0x01#8) (p : Byte) : b ≠ stackAddr p := by
  rintro rfl
  exact outside (hiByte_ofBytes 0x01#8 p)

end

/-! ### The statements -/

/-- Settles O36: `afterLoad` writes `A`, `Z`, `N`, `pc` and `cyc` only. -/
theorem loadFrame : Obligations.LoadFrame := by
  intro i s t load ran
  obtain ⟨v, rfl⟩ := eq_afterLoad_of_exec load ran
  exact ⟨rfl, rfl, rfl, rfl, rfl, rfl, rfl, rfl, rfl, fun _ => rfl⟩

/-- Settles O39: by what the step was, idle, a load, a call or a fault. -/
theorem indexRegistersNeverChange : Obligations.IndexRegistersNeverChange := by
  intro s t stepped
  obtain ⟨-, -, rfl⟩ | ⟨-, -, i, v, -, -, rfl⟩ | ⟨-, -, target, -, rfl⟩ | ⟨-, -, op, -, rfl⟩ := step_next_cases stepped
  · exact ⟨rfl, rfl⟩
  · exact ⟨rfl, rfl⟩
  · exact ⟨callTo_x _ target, callTo_y _ target⟩
  · exact ⟨rfl, rfl⟩

/-- Settles O40: only the call stores, and both bytes of its push lie in the stack page. -/
theorem stepsStoreOnlyInStackPage : Obligations.StepsStoreOnlyInStackPage := by
  intro s t b stepped outside
  obtain ⟨-, -, rfl⟩ | ⟨-, -, i, v, -, -, rfl⟩ | ⟨-, -, target, -, rfl⟩ | ⟨-, -, op, -, rfl⟩ := step_next_cases stepped
  · rfl
  · rfl
  · rw [callTo_fetched_mem, pushWord_readByte_ne s _ (ne_stackAddr outside _) (ne_stackAddr outside _)]
  · rfl

/-- Settles O41: the run state, the instruction fetched and its cost are the same, so the second step is of the same kind as
the first. -/
theorem accumulatorAndFlagsAreNeverRead : Obligations.AccumulatorAndFlagsAreNeverRead := by
  intro s a' flags'
  let changed : State := { s with a := a', flags := flags' }
  refine ⟨fun t stepped => ?next, fun r stopped => ?fault⟩
  case next =>
    obtain ⟨unlatched, spent, rfl⟩ | ⟨unlatched, budget, i, v, load, fetched, rfl⟩ |
      ⟨unlatched, budget, target, fetched, rfl⟩ | ⟨unlatched, budget, op, fetched, rfl⟩ := step_next_cases stepped
    · exact ⟨_, step_of_idle (s := changed) unlatched spent, rfl, rfl, rfl, rfl, rfl, rfl, rfl⟩
    · have same_cost : cycleCost i changed = cycleCost i s := rfl
      refine ⟨_, (step_of_fetched (s := changed) unlatched budget fetched).trans (exec_eq_afterLoad_loadedByte _ load), ?_⟩
      rw [same_cost]
      exact ⟨rfl, rfl, rfl, rfl, rfl, rfl, rfl⟩
    · exact ⟨_, (step_of_fetched (s := changed) unlatched budget fetched).trans (exec_jsr_eq _ target),
        rfl, rfl, rfl, rfl, rfl, rfl, rfl⟩
    · exact ⟨_, step_of_unimplemented (s := changed) unlatched budget fetched, rfl, rfl, rfl, rfl, rfl, rfl, rfl⟩
  case fault => exact step_fault_iff.mpr (step_fault_iff (s := s).mp stopped)

/-- Settles O42: off the modes that index by the register, the byte loaded and the cost are the same. -/
theorem modesReadOnlyTheirIndex : Obligations.ModesReadOnlyTheirIndex := by
  refine ⟨fun i s t k no_zpx no_absx no_indx ran => ?x, fun i s t k no_absy no_indy ran => ?y⟩
  case x =>
    cases i with
    | ldaZpx d8 => exact absurd rfl (no_zpx d8)
    | ldaAbsx a16 => exact absurd rfl (no_absx a16)
    | ldaIndx d8 => exact absurd rfl (no_indx d8)
    | _ => exact exec_with_x rfl rfl ran
  case y =>
    cases i with
    | ldaAbsy a16 => exact absurd rfl (no_absy a16)
    | ldaIndy d8 => exact absurd rfl (no_indy d8)
    | _ => exact exec_with_y rfl rfl ran

end Sys2Proof.Machine
end

section
/-! The per-cycle accesses of an instruction against its meaning: one entry per cycle charged, and only the call's two writes
(40_execution_loop_and_primitives R92, R93). -/

namespace Sys2Proof.Machine

/-! ### One entry per cycle -/

theorem busIndexed_length (base : Addr) (index : Byte) :
    (busIndexed base index).length = if pageCross base (base + zext16 index) then 2 else 1 := by
  rw [busIndexed_eq]
  simp only [pageCross_iff]
  split <;> rfl

theorem busCycles_length (i : Instr) (s : State) : ((busCycles i s).length : Int) = cycleCost i s := by
  cases i with
  | ldaAbsx a16 | ldaAbsy a16 | ldaIndy d8 =>
    simp only [busCycles, busFetch2, busFetch3, busPointer, cycleCost, List.length_append, busIndexed_length]
    split <;> rfl
  | _ => rfl

/-! ### The writes -/

/-- A list of cycles without a write leaves the memory. -/
theorem replayWrites_eq_self {cycles : List BusCycle} (no_write : ∀ addr v, .write addr v ∉ cycles) (m : Memory) :
    replayWrites cycles m = m := by
  induction cycles with
  | nil => rfl
  | cons cycle rest ih =>
    have rest_kept := ih fun addr v later => no_write addr v (List.mem_cons_of_mem _ later)
    cases cycle with
    | read addr => exact rest_kept
    | internal => exact rest_kept
    | write addr v => exact absurd List.mem_cons_self (no_write addr v)

theorem write_not_mem_busIndexed (base addr : Addr) (index v : Byte) : .write addr v ∉ busIndexed base index := by
  rw [busIndexed_eq]
  split <;> simp

theorem write_not_mem_busCycles {i : Instr} (load : isLoad i = true) (s : State) (addr : Addr) (v : Byte) :
    .write addr v ∉ busCycles i s := by
  cases i with
  | jsr target => cases load
  | _ => simp [busCycles, busFetch2, busFetch3, busPointer, write_not_mem_busIndexed]

theorem replayWrites_busCycles {i : Instr} {s t : State} (ran : exec i s = .next t) :
    t.mem = replayWrites (busCycles i s) s.mem := by
  obtain load | ⟨target, rfl⟩ := isLoad_or_eq_jsr i
  · obtain ⟨v, rfl⟩ := eq_afterLoad_of_exec load ran
    exact (replayWrites_eq_self (write_not_mem_busCycles load s) s.mem).symm
  · cases (exec_jsr_eq s target).symm.trans ran
    rw [callTo_eq]
    rfl

/-- Settles O35: the accesses are as many as the table's cycles, and replayed they make the load's or the call's memory. -/
theorem busCyclesAccountForInstruction : Obligations.BusCyclesAccountForInstruction := by
  intro i s t ran
  refine ⟨?cycles, replayWrites_busCycles ran⟩
  case cycles =>
    obtain ⟨u, completed, charged⟩ := exec_next_cyc s i
    cases ran.symm.trans completed
    rw [charged, busCycles_length]
    omega

end Sys2Proof.Machine
end
